-- ==== Sys2Proof/Word.lean ====
section
/-! DEFINITION. The bit-vector types of CRCFX (spec/00_scope.md R2, R4). -/

namespace Sys2Proof

/-- A register, a command word or the data of a bus access: `REG_WIDTH` = 32 bits (R2). -/
abbrev Word := BitVec 32

/-- A byte of a message or a byte lane. -/
abbrev Byte := BitVec 8

/-- A byte offset from `BASE`: the window has 0x800 = 2^11 bytes (20_memory.md R28). -/
abbrev Offset := BitVec 11

end Sys2Proof
end

