-- ==== Sys2Proof/Machine/FxCodec.lean ====
section
/-! DEFINITION. The fixed-point codec: an integer and a scale to a binary32 pattern (spec/40_fixed_point.md R53). -/

namespace Sys2Proof.Machine

/-- R9: `binary32(s, e, f)` = `s ++ e ++ f`. -/
def binary32 (sign : BitVec 1) (e : BitVec 8) (f : BitVec 23) : Word := sign ++ e ++ f

/-- The significand `q` and the index `p` of its top bit, after R53's rounding of `m` >= 1: to nearest, ties to even. -/
def roundToSignificand (m : Nat) : Nat × Nat :=
  let p := Nat.log2 m
  if p ≤ 23 then (m <<< (23 - p), p)
  else
    let k := p - 23
    let q := m >>> k
    let r := m - (q <<< k)
    let h := 1 <<< (k - 1)
    let q' := if r > h ∨ (r = h ∧ q % 2 = 1) then q + 1 else q
    if q' = 2 ^ 24 then (2 ^ 23, p + 1) else (q', p)

/-- R53: `fx_to_binary32(v, n)`. -/
def fxToBinary32 (v : Int) (n : Nat) : Word :=
  if v = 0 then 0x00000000#32
  else
    let sign : BitVec 1 := if v < 0 then 1#1 else 0#1
    let qp := roundToSignificand v.natAbs
    binary32 sign (BitVec.ofNat 8 (qp.2 + 127 - n)) (BitVec.ofNat 23 (qp.1 - 2 ^ 23))

/-- R55: `XI` read as two's complement, scale 17. -/
def fxQ17S (x : Word) : Word := fxToBinary32 x.toInt 17
/-- R56: `XI` read as two's complement, scale 21. -/
def fxQ21S (x : Word) : Word := fxToBinary32 x.toInt 21
/-- R57: `XI` read as unsigned, scale 15. -/
def fxQ15U (x : Word) : Word := fxToBinary32 (Int.ofNat x.toNat) 15

end Sys2Proof.Machine
end

