-- ==== Sys2Proof/Config.lean ====
section
/-! DEFINITION. What one implementation of CRCFX fixes (spec/00_scope.md R2, R3), and the values the spec
leaves free. -/

namespace Sys2Proof

/-- The engine-presence parameters `TABLE_ENGINE` and `SERIAL_ENGINE` (00_scope.md R2, R3). -/
structure Engines where
  table  : Bool
  serial : Bool
  deriving DecidableEq, Repr

/-- R3: "An implementation must provide at least one of the two engines." -/
def Engines.allowed (e : Engines) : Bool := e.table || e.serial

namespace Config

/-- R2: both engines are present in this implementation. Log entry 8. -/
def engines : Engines := { table := true, serial := true }

/-- `WINDOW`: the size of the register window in bytes (R2). -/
def windowSize : Nat := 0x800

/-- `BASE` is OPEN; what the spec says of it is that it is a multiple of 0x800 (R2). Log entry 7. -/
def validBase (base : Nat) : Bool := base % windowSize == 0

/-- `any32` of 20_memory.md R31 (70_reset_and_hazards.md R103): `anyRead port k` is the k-th free draw of the block at bus port
`port`; no two reads of one platform share a draw. FREE VALUE, no law. DESIGN CHOICE: a draw is named by a port and a count, so two
runs that read at equal port and count read the same value. Log entry 4. -/
opaque anyRead : Nat → Nat → Word

/-- A byte of the HOST's own memory past the end of its buffer (95_test_vectors.md P2: "That byte is the host's").
FREE VALUE. Log entry 18. -/
opaque hostByte : Nat → Byte

end Config
end Sys2Proof
end

