-- ==== Sys2Proof/Machine/State.lean ====
section
/-! DEFINITION. The state of one CRCFX block (spec/10_state.md), the events that reach it, and why a step can stop. -/

namespace Sys2Proof.Machine

/-- `STATUS` (10_state.md R19): its three fields. Bits 31:3 have no storage: they are reserved, never set, and read as
zero. Log entry 10. -/
structure Status where
  /-- bit 0: an accepted multi-cycle command has not completed. -/
  busy : Bool
  /-- bit 1, sticky: an illegal command word was written to `CMD`. -/
  ill  : Bool
  /-- bit 2, sticky: a write arrived while busy and was dropped. -/
  berr : Bool
  deriving DecidableEq, Repr

/-- The opcode and `ARG` field of a pending command: the five multi-cycle commands of 30_encoding.md R49. Log entry 11. -/
inductive PendCmd where
  | updT (arg : BitVec 2)
  | updS (arg : BitVec 2)
  | q17s
  | q21s
  | q15u
  deriving DecidableEq, Repr

/-- The record `(op, arg, r0, d0, x0)` of 10_state.md R25; `op` and `arg` are `PendCmd.op` and `PendCmd.arg` of `cmd`. -/
structure Pend where
  cmd : PendCmd
  r0  : Word
  d0  : Word
  x0  : Word
  deriving DecidableEq, Repr

/-- What can happen to the block (00_scope.md R11). An access carries its offset in the window (20_memory.md R30), and not
which host made it: the accesses of several hosts are one stream in arrival order (R38, R40). Log entry 22. -/
inductive Event where
  /-- `MemRead(BASE + off, n)` (20_memory.md R31). -/
  | read (off : Offset) (n : Nat)
  /-- `MemWrite(BASE + off, n, v)` (20_memory.md R32). -/
  | write (off : Offset) (n : Nat) (v : Nat)
  /-- A turn of the unit (70_reset_and_hazards.md R101). -/
  | complete
  /-- Reset (70_reset_and_hazards.md R96). -/
  | reset
  deriving DecidableEq, Repr

/-- What one read access returned to the host. -/
structure ReadReply where
  off   : Offset
  value : Word
  deriving DecidableEq, Repr

/-- The state of one block and of its bus port. `port`, `draws`, `reads` and `inputs` are the model's
own (log entries 1, 4, 5). -/
structure State where
  /-- `CRC_STATE`, the running CRC register `R` (10_state.md R14). -/
  r      : Word
  /-- `DATA`, `D` (R16). -/
  d      : Word
  /-- `FX_RAW`, `XI` (R17). -/
  xi     : Word
  /-- `FX_OUT`, `XO` (R18). -/
  xo     : Word
  /-- `STATUS` (R19). -/
  status : Status
  /-- `PEND`, the hidden state (R25). -/
  pend   : Option Pend
  /-- Which block of the platform this is: the stream its free draws come from (70_reset_and_hazards.md R103). -/
  port   : Nat
  /-- How many free draws reads have taken (20_memory.md R31). -/
  draws  : Nat
  /-- What the host's reads returned, newest first. -/
  reads  : List ReadReply
  /-- The events still to be served, in arrival order (20_memory.md R38). -/
  inputs : List Event
  deriving DecidableEq, Repr

/-- Why the machine stops with a fault. -/
inductive Fault where
  /-- `BusFault(off)` (60_exceptions.md R84, R85): raised by an access whose width is not 32 bits or whose offset is not
  aligned. SAFE: R85 says that a model treats it as a fault and that no continuation is defined. Log entry 6. -/
  | busFault (off : Offset)
  deriving DecidableEq, Repr

/-- Why the model gives no meaning. -/
inductive Refusal where
  /-- Raised by an arm of `exec` whose command has no meaning yet (none now). SAFE: the run stops. -/
  | notModelled (mnemonic : String)
  deriving DecidableEq, Repr

/-- The state right after reset (10_state.md R26, 70_reset_and_hazards.md R96), with no event delivered yet. -/
def State.reset : State where
  r := 0xFFFFFFFF#32
  d := 0x00000000#32
  xi := 0x00000000#32
  xo := 0x00000000#32
  status := { busy := false, ill := false, berr := false }
  pend := none
  port := 0
  draws := 0
  reads := []
  inputs := []

end Sys2Proof.Machine
end

