-- ==== Sys2Proof/Machine/Flags.lean ====
section
/-! DEFINITION. The flags of CRCFX: the three fields of `STATUS` and the constant `CONFIG` (spec/10_state.md R19, R20,
R24). No command sets a flag from its result (R24, 40_fixed_point.md R58). -/

namespace Sys2Proof.Machine

/-- A flag as one bit. -/
def flagBit (b : Bool) : BitVec 1 := if b then 1#1 else 0#1

/-- `STATUS` as a host read returns it (R19): `BUSY` bit 0, `ILL` bit 1, `BERR` bit 2, bits 31:3 zero. -/
def Status.word (st : Status) : Word := (0#29 : BitVec 29) ++ flagBit st.berr ++ flagBit st.ill ++ flagBit st.busy

/-- Acceptance of a multi-cycle command (70_reset_and_hazards.md R100). -/
def Status.setBusy (st : Status) : Status := { st with busy := true }
/-- Completion (70_reset_and_hazards.md R101). -/
def Status.clearBusy (st : Status) : Status := { st with busy := false }
/-- `raise IllegalCommand` (60_exceptions.md R86). -/
def Status.setIll (st : Status) : Status := { st with ill := true }
/-- `raise BusyWrite` (60_exceptions.md R87). -/
def Status.setBerr (st : Status) : Status := { st with berr := true }
/-- `ERR.CLR` (42_control.md R81): it does not write `BUSY`. -/
def Status.clearErrors (st : Status) : Status := { st with ill := false, berr := false }

/-- `CONFIG` (10_state.md R20): `TAB` bit 0, `SER` bit 1, bits 31:2 zero. -/
def configWord (e : Engines) : Word := (0#30 : BitVec 30) ++ flagBit e.serial ++ flagBit e.table

end Sys2Proof.Machine
end

