-- ==== Sys2Proof/Syntax.lean ====
section
/-! DEFINITION. The commands of CRCFX: one constructor for each row of spec/opcode_table.json (30_encoding.md R47). -/

namespace Sys2Proof

/-- A command. `nb` is the operand of `CRC.UPD.T nb` and `CRC.UPD.S nb` as R44 and R50 write it, a count of bytes. -/
inductive Instr where
  /-- `NOP` (42_control.md R80). -/
  | nop
  /-- `CRC.INIT` (41_crc32.md R69). -/
  | crcInit
  /-- `CRC.UPD.T nb` (41_crc32.md R70). -/
  | crcUpdT (nb : Nat)
  /-- `CRC.UPD.S nb` (41_crc32.md R71). -/
  | crcUpdS (nb : Nat)
  /-- `FX.Q17S` (40_fixed_point.md R55). -/
  | fxQ17S
  /-- `FX.Q21S` (40_fixed_point.md R56). -/
  | fxQ21S
  /-- `FX.Q15U` (40_fixed_point.md R57). -/
  | fxQ15U
  /-- `ERR.CLR` (42_control.md R81). -/
  | errClr
  deriving DecidableEq, Repr

end Sys2Proof
end

