-- ==== Sys2Proof/WellFormed.lean ====
section
/-! DEFINITION. Which commands exist: the byte count's range (30_encoding.md R44, R50) and the engine a command
needs (00_scope.md R3, 30_encoding.md R46). -/

namespace Sys2Proof

/-- R44: `nb` is in 1..4. -/
def byteCountOk (nb : Nat) : Bool := decide (1 ≤ nb) && decide (nb ≤ 4)

/-- A command that a build with the engines `e` has. -/
def Instr.wellFormed (e : Engines) : Instr → Bool
  | .nop => true
  | .crcInit => true
  | .crcUpdT nb => e.table && byteCountOk nb
  | .crcUpdS nb => e.serial && byteCountOk nb
  | .fxQ17S => true
  | .fxQ21S => true
  | .fxQ15U => true
  | .errClr => true

/-- R49: the command class, `true` for multi. -/
def Instr.isMulti : Instr → Bool
  | .nop => false
  | .crcInit => false
  | .crcUpdT _ => true
  | .crcUpdS _ => true
  | .fxQ17S => true
  | .fxQ21S => true
  | .fxQ15U => true
  | .errClr => false

end Sys2Proof
end

