-- ==== Sys2Proof/Decode.lean ====
section
/-! DEFINITION. Command words: the byte order, the decoder and the encoder (spec/30_encoding.md). -/

namespace Sys2Proof

/-! ## Bytes of a word -/

/-- `byte(v, k) = v[8k+7:8k]` (00_scope.md R4), the byte lane `k` of a word (20_memory.md R33). -/
def byteOf (v : Word) (k : Nat) : Byte := v.extractLsb' (8 * k) 8

/-- The four byte lanes of a word, lowest address first (R33). -/
def bytesOfWord (v : Word) : List Byte := [byteOf v 0, byteOf v 1, byteOf v 2, byteOf v 3]

/-- The word whose lanes 0 to 3 are `b0` to `b3` (R33). -/
def wordOfBytes (b0 b1 b2 b3 : Byte) : Word := b3 ++ b2 ++ b1 ++ b0

/-! ## Fields (R43) -/

def opcOf (w : Word) : BitVec 8 := w.extractLsb' 0 8
def argOf (w : Word) : BitVec 2 := w.extractLsb' 8 2
def rsvOf (w : Word) : BitVec 22 := w.extractLsb' 10 22

/-- The command word with the fields `OPC` and `ARG` and with `RSV` = 0 (R43). -/
def commandWord (opc : BitVec 8) (arg : BitVec 2) : Word := (0#22 : BitVec 22) ++ arg ++ opc

/-- R44: `nb = uint(ARG) + 1`. -/
def countOfArg (arg : BitVec 2) : Nat := arg.toNat + 1

/-- R47: `ARG = nb - 1`. A count outside 1..4 is no command; log entry 20. -/
def argOfCount (nb : Nat) : BitVec 2 := BitVec.ofNat 2 (nb - 1)

/-! ## The decoder -/

/-- Why bytes are no command. -/
inductive DecodeError where
  /-- Fewer than four bytes: a command is exactly one 32-bit word (R42). -/
  | truncated
  /-- R48(a): `RSV` is not 0. -/
  | reservedBits
  /-- R48(b): `OPC` in 0x06..0xFF. -/
  | unknownOpcode (opc : BitVec 8)
  /-- R48(c): `OPC` = 0x04 with `ARG` = 0b11. -/
  | reservedFormat
  /-- R48(d): `ARG` is not 0 with an `OPC` that takes no operand. -/
  | nonzeroArg (opc : BitVec 8)
  /-- R48(e): the engine the command needs is absent. -/
  | engineAbsent (opc : BitVec 8)
  deriving DecidableEq, Repr

/-- A command that takes no operand: `ARG` must be 0b00 (R44, R48(d)). -/
def withoutOperand (opc : BitVec 8) (arg : BitVec 2) (i : Instr) : Except DecodeError Instr :=
  if arg = 0#2 then .ok i else .error (.nonzeroArg opc)

/-- `FX.CVT`: the format selector of R44; 0b11 is reserved (R48(c)). -/
def decodeFormat (arg : BitVec 2) : Except DecodeError Instr :=
  if arg = 0#2 then .ok .fxQ17S
  else if arg = 1#2 then .ok .fxQ21S
  else if arg = 2#2 then .ok .fxQ15U
  else .error .reservedFormat

/-- The command a word spells in a build with the engines `e` (R46, R47), or why it is illegal (R48). -/
def decodeWord (e : Engines) (w : Word) : Except DecodeError Instr :=
  let opc := opcOf w
  let arg := argOf w
  if rsvOf w ≠ 0#22 then .error .reservedBits
  else if opc = 0x00#8 then withoutOperand opc arg .nop
  else if opc = 0x01#8 then withoutOperand opc arg .crcInit
  else if opc = 0x02#8 then
    if e.table then .ok (.crcUpdT (countOfArg arg)) else .error (.engineAbsent opc)
  else if opc = 0x03#8 then
    if e.serial then .ok (.crcUpdS (countOfArg arg)) else .error (.engineAbsent opc)
  else if opc = 0x04#8 then decodeFormat arg
  else if opc = 0x05#8 then withoutOperand opc arg .errClr
  else .error (.unknownOpcode opc)

/-- The command that a list of bytes, lowest address first, begins with, and the bytes after it. Every command is one
word (R42), its byte lanes little-endian (20_memory.md R33). -/
def decode (e : Engines) : List Byte → Except DecodeError (Instr × List Byte)
  | b0 :: b1 :: b2 :: b3 :: rest =>
    match decodeWord e (wordOfBytes b0 b1 b2 b3) with
    | .ok i => .ok (i, rest)
    | .error x => .error x
  | _ => .error .truncated

/-- The command the decoder reads from the `nbits` bits `w`, laid out as the window stores them. -/
def decodeTableWord (nbits w : Nat) : Option Instr :=
  match decode Config.engines (bytesOfWord (BitVec.ofNat 32 (w % 2 ^ nbits))) with
  | .ok (i, _) => some i
  | .error _ => none

/-- `legal(w)`, written as R46 writes it. -/
def legal (e : Engines) (w : Word) : Bool :=
  (rsvOf w == 0#22) &&
    ((opcOf w == 0x00#8 && argOf w == 0b00#2)
      || (opcOf w == 0x01#8 && argOf w == 0b00#2)
      || (opcOf w == 0x02#8 && e.table)
      || (opcOf w == 0x03#8 && e.serial)
      || (opcOf w == 0x04#8 && argOf w != 0b11#2)
      || (opcOf w == 0x05#8 && argOf w == 0b00#2))

/-! ## The encoder -/

/-- R47: the word of a command. -/
def encode : Instr → Word
  | .nop => commandWord 0x00#8 0b00#2
  | .crcInit => commandWord 0x01#8 0b00#2
  | .crcUpdT nb => commandWord 0x02#8 (argOfCount nb)
  | .crcUpdS nb => commandWord 0x03#8 (argOfCount nb)
  | .fxQ17S => commandWord 0x04#8 0b00#2
  | .fxQ21S => commandWord 0x04#8 0b01#2
  | .fxQ15U => commandWord 0x04#8 0b10#2
  | .errClr => commandWord 0x05#8 0b00#2

/-! ## The opcode map as rows (R47) -/

/-- A row of R47: a word `w` spells the row's mnemonic when `w & mask == match`. -/
structure OpRow where
  mnemonic : String
  mask     : Word
  pattern  : Word
  multi    : Bool
  deriving DecidableEq, Repr

def OpRow.spells (row : OpRow) (w : Word) : Bool := w &&& row.mask == row.pattern

/-- The eight rows, as R47 and spec/opcode_table.json give them. -/
def opcodeTable : List OpRow :=
  [ { mnemonic := "NOP",          mask := 0xFFFFFFFF#32, pattern := 0x00000000#32, multi := false },
    { mnemonic := "CRC.INIT",     mask := 0xFFFFFFFF#32, pattern := 0x00000001#32, multi := false },
    { mnemonic := "CRC.UPD.T_nb", mask := 0xFFFFFCFF#32, pattern := 0x00000002#32, multi := true },
    { mnemonic := "CRC.UPD.S_nb", mask := 0xFFFFFCFF#32, pattern := 0x00000003#32, multi := true },
    { mnemonic := "FX.Q17S",      mask := 0xFFFFFFFF#32, pattern := 0x00000004#32, multi := true },
    { mnemonic := "FX.Q21S",      mask := 0xFFFFFFFF#32, pattern := 0x00000104#32, multi := true },
    { mnemonic := "FX.Q15U",      mask := 0xFFFFFFFF#32, pattern := 0x00000204#32, multi := true },
    { mnemonic := "ERR.CLR",      mask := 0xFFFFFFFF#32, pattern := 0x00000005#32, multi := false } ]

/-- The mnemonic of a command, as spec/opcode_table.json spells it. -/
def Instr.mnemonic : Instr → String
  | .nop => "NOP"
  | .crcInit => "CRC.INIT"
  | .crcUpdT _ => "CRC.UPD.T_nb"
  | .crcUpdS _ => "CRC.UPD.S_nb"
  | .fxQ17S => "FX.Q17S"
  | .fxQ21S => "FX.Q21S"
  | .fxQ15U => "FX.Q15U"
  | .errClr => "ERR.CLR"

end Sys2Proof
end

