-- ==== Sys2Proof/Machine/Operands.lean ====
section
/-! DEFINITION. Operands: the pending command's opcode and `ARG`, the bytes a CRC command consumes, and the registers
an offset of the window selects. -/

namespace Sys2Proof.Machine

/-- `PEND.op` (10_state.md R25): `w[7:0]` of the command (30_encoding.md R47). -/
def PendCmd.op : PendCmd → BitVec 8
  | .updT _ => 0x02#8
  | .updS _ => 0x03#8
  | .q17s => 0x04#8
  | .q21s => 0x04#8
  | .q15u => 0x04#8

/-- `PEND.arg` (10_state.md R25): `w[9:8]` of the command (30_encoding.md R47). -/
def PendCmd.arg : PendCmd → BitVec 2
  | .updT a => a
  | .updS a => a
  | .q17s => 0b00#2
  | .q21s => 0b01#2
  | .q15u => 0b10#2

/-- The first `nb` bytes of `d`, `byte(d, 0)` first (20_memory.md R34, 30_encoding.md R44). -/
def consumedBytes (d : Word) (nb : Nat) : List Byte := (List.range nb).map (byteOf d)

/-- The command a pending record's command is, as syntax. -/
def PendCmd.instr : PendCmd → Instr
  | .updT a => .crcUpdT (countOfArg a)
  | .updS a => .crcUpdS (countOfArg a)
  | .q17s => .fxQ17S
  | .q21s => .fxQ21S
  | .q15u => .fxQ15U

/-! ## The register map (20_memory.md R29) -/

/-- What an aligned offset of the window selects. -/
inductive WinReg where
  | cmd
  | status
  | crcState
  | crcResult
  | data
  | fxRaw
  | fxOut
  | config
  /-- 0x020..0x3FC (R37). -/
  | reserved
  /-- `TABLE[i]` at `0x400 + 4*i`. -/
  | table (i : BitVec 8)
  deriving DecidableEq, Repr

/-- R35: `off[1:0] = 0b00`. -/
def aligned (off : Offset) : Bool := off.extractLsb' 0 2 == 0#2

/-- R30: the register whose offset equals `off`. -/
def winReg (off : Offset) : WinReg :=
  if off = 0x000#11 then .cmd
  else if off = 0x004#11 then .status
  else if off = 0x008#11 then .crcState
  else if off = 0x00C#11 then .crcResult
  else if off = 0x010#11 then .data
  else if off = 0x014#11 then .fxRaw
  else if off = 0x018#11 then .fxOut
  else if off = 0x01C#11 then .config
  else if 0x400 ≤ off.toNat then .table (BitVec.ofNat 8 ((off.toNat - 0x400) >>> 2))
  else .reserved

/-- `off(REG)` of 30_encoding.md R52; no single offset for the reserved range. -/
def WinReg.offset : WinReg → Option Offset
  | .cmd => some 0x000#11
  | .status => some 0x004#11
  | .crcState => some 0x008#11
  | .crcResult => some 0x00C#11
  | .data => some 0x010#11
  | .fxRaw => some 0x014#11
  | .fxOut => some 0x018#11
  | .config => some 0x01C#11
  | .reserved => none
  | .table i => some (BitVec.ofNat 11 (0x400 + 4 * i.toNat))

/-- The registers whose write is dropped while a command is pending (R32, 70_reset_and_hazards.md R104). -/
def WinReg.dropsWhileBusy : WinReg → Bool
  | .cmd => true
  | .crcState => true
  | .data => true
  | .fxRaw => true
  | .status => false
  | .crcResult => false
  | .fxOut => false
  | .config => false
  | .reserved => false
  | .table _ => false

/-- The registers whose read returns any value while a command is pending (70_reset_and_hazards.md R103). -/
def WinReg.anyWhileBusy : WinReg → Bool
  | .crcState => true
  | .crcResult => true
  | .fxOut => true
  | .cmd => false
  | .status => false
  | .data => false
  | .fxRaw => false
  | .config => false
  | .reserved => false
  | .table _ => false

end Sys2Proof.Machine
end

