-- ==== Sys2Proof/Machine/Registers.lean ====
section
/-! DEFINITION. The named updates of State: every write of a field goes through one of these. -/

namespace Sys2Proof.Machine

def State.setR (s : State) (v : Word) : State := { s with r := v }
def State.setD (s : State) (v : Word) : State := { s with d := v }
def State.setXi (s : State) (v : Word) : State := { s with xi := v }
def State.setXo (s : State) (v : Word) : State := { s with xo := v }
def State.setStatus (s : State) (v : Status) : State := { s with status := v }
def State.setPend (s : State) (v : Option Pend) : State := { s with pend := v }
def State.setPort (s : State) (v : Nat) : State := { s with port := v }
/-- One more free draw has been taken. -/
def State.countDraw (s : State) : State := { s with draws := s.draws + 1 }
/-- A read returned `v` to the host. -/
def State.pushRead (s : State) (v : ReadReply) : State := { s with reads := v :: s.reads }
def State.setInputs (s : State) (v : List Event) : State := { s with inputs := v }

end Sys2Proof.Machine
end

