-- ==== Sys2Proof/Machine/Ops.lean ====
section
/-! DEFINITION. The shared operations of the commands: raising an error event, recovering from it, issuing a command,
acceptance and completion (spec/60_exceptions.md, 70_reset_and_hazards.md). -/

namespace Sys2Proof.Machine

/-- The three error events (60_exceptions.md R84). -/
inductive ErrorEvent where
  | busFault (off : Offset)
  | illegalCommand (w : Word)
  | busyWrite (off : Offset)
  deriving DecidableEq, Repr

/-- What raising an event does to the block: `BusFault` changes nothing (R85), `IllegalCommand` sets `ILL` (R86),
`BusyWrite` sets `BERR` (R87). There is no trap (R91): no state is saved and nothing is entered. -/
def raise (ev : ErrorEvent) (s : State) : State :=
  match ev with
  | .busFault _ => s
  | .illegalCommand _ => s.setStatus s.status.setIll
  | .busyWrite _ => s.setStatus s.status.setBerr

/-- The recovery from events (R92): `ERR.CLR` clears both sticky flags (42_control.md R81). -/
def recover (s : State) : State := s.setStatus s.status.clearErrors

/-- A host write of a command to `CMD` (20_memory.md R32): dropped while a command is pending, else `effect`. -/
def issue (effect : State → State) (s : State) : Host.Outcome State Fault Refusal :=
  match s.pend with
  | none => .next (effect s)
  | some _ => .next (raise (.busyWrite 0x000#11) s)

/-- Acceptance of a multi-cycle command (70_reset_and_hazards.md R100). -/
def acceptMulti (cmd : PendCmd) (s : State) : State :=
  (s.setPend (some { cmd := cmd, r0 := s.r, d0 := s.d, x0 := s.xi })).setStatus s.status.setBusy

/-- The end of every completion (R101): `PEND <- none`, `STATUS.BUSY <- 0`. -/
def finish (s : State) : State := (s.setPend none).setStatus s.status.clearBusy

end Sys2Proof.Machine
end

