-- ==== Sys2Proof/Machine/Codec.lean ====
section
/-! DEFINITION. The fixed-point codec commands: what each does when it is written to `CMD`, and its completion
(spec/40_fixed_point.md R55 to R57). -/

namespace Sys2Proof.Machine

/-- `FX.Q17S` (R55): acceptance. -/
def execFxQ17S (s : State) : Host.Outcome State Fault Refusal := issue (acceptMulti .q17s) s

/-- `FX.Q21S` (R56): acceptance. -/
def execFxQ21S (s : State) : Host.Outcome State Fault Refusal := issue (acceptMulti .q21s) s

/-- `FX.Q15U` (R57): acceptance. -/
def execFxQ15U (s : State) : Host.Outcome State Fault Refusal := issue (acceptMulti .q15u) s

/-- `FX.Q17S` (R55, R101): completion. -/
def completeFxQ17S (p : Pend) (s : State) : State := finish (s.setXo (fxQ17S p.x0))

/-- `FX.Q21S` (R56, R101): completion. -/
def completeFxQ21S (p : Pend) (s : State) : State := finish (s.setXo (fxQ21S p.x0))

/-- `FX.Q15U` (R57, R101): completion. -/
def completeFxQ15U (p : Pend) (s : State) : State := finish (s.setXo (fxQ15U p.x0))

end Sys2Proof.Machine
end

