-- ==== Sys2Proof/Machine/Control.lean ====
section
/-! DEFINITION. The control commands (spec/42_control.md). -/

namespace Sys2Proof.Machine

/-- `NOP` (R80). -/
def execNop (s : State) : Host.Outcome State Fault Refusal := issue (fun t => t) s

/-- `ERR.CLR` (R81). -/
def execErrClr (s : State) : Host.Outcome State Fault Refusal := issue recover s

end Sys2Proof.Machine
end

