-- ==== Sys2Proof/Machine/CrcEngine.lean ====
section
/-! DEFINITION. The CRC-32 generator: the step, the two byte functions, the table and the message CRC
(spec/41_crc32.md R62 to R68). -/

namespace Sys2Proof.Machine

/-- `CRC_POLY` (00_scope.md R2, R62). -/
def crcPoly : Word := 0xEDB88320#32
/-- `CRC_INIT`. -/
def crcInitValue : Word := 0xFFFFFFFF#32
/-- `CRC_XOROUT`. -/
def crcXorOut : Word := 0xFFFFFFFF#32

/-- R63: one shift-and-conditional-XOR step. -/
def crcStep (r : Word) : Word :=
  if r.getLsbD 0 then (r >>> 1) ^^^ crcPoly else r >>> 1

/-- `k` steps. -/
def crcSteps : Nat → Word → Word
  | 0, r => r
  | k + 1, r => crcSteps k (crcStep r)

/-- R64: the bit-serial byte function. -/
def crcByteS (r : Word) (b : Byte) : Word := crcSteps 8 (r ^^^ b.setWidth 32)

/-- R65: entry `n` of the lookup table `T`, eight steps from `zext_32(n)`. Log entry 9. -/
def tableEntry (n : Byte) : Word := crcSteps 8 (n.setWidth 32)

/-- R66: the table-driven byte function. -/
def crcByteT (r : Word) (b : Byte) : Word :=
  tableEntry ((r ^^^ b.setWidth 32).extractLsb' 0 8) ^^^ (r >>> 8)

/-- A sequence of bytes absorbed by the table-driven engine (R70, R101). -/
def crcFoldT : Word → List Byte → Word
  | r, [] => r
  | r, b :: m => crcFoldT (crcByteT r b) m

/-- R68: `crc_fold`, by the bit-serial byte function (R71, R101). -/
def crcFold : Word → List Byte → Word
  | r, [] => r
  | r, b :: m => crcFold (crcByteS r b) m

/-- R68: the CRC of a message. -/
def crc32 (m : List Byte) : Word := crcFold crcInitValue m ^^^ crcXorOut

/-- R15: the value of the view `CRC_RESULT` of a running register. -/
def crcResult (r : Word) : Word := r ^^^ crcXorOut

end Sys2Proof.Machine
end

