-- ==== Sys2Proof/Machine/Crc.lean ====
section
/-! DEFINITION. The CRC-32 generator commands: what each does when it is written to `CMD`, and its completion
(spec/41_crc32.md R69 to R71). -/

namespace Sys2Proof.Machine

/-- `CRC.INIT` (R69). -/
def execCrcInit (s : State) : Host.Outcome State Fault Refusal := issue (fun t => t.setR crcInitValue) s

/-- `CRC.UPD.T nb` (R70): acceptance. -/
def execCrcUpdT (nb : Nat) (s : State) : Host.Outcome State Fault Refusal :=
  issue (acceptMulti (.updT (argOfCount nb))) s

/-- `CRC.UPD.S nb` (R71): acceptance. -/
def execCrcUpdS (nb : Nat) (s : State) : Host.Outcome State Fault Refusal :=
  issue (acceptMulti (.updS (argOfCount nb))) s

/-- `CRC.UPD.T nb` (R70, R101): completion. -/
def completeCrcUpdT (arg : BitVec 2) (p : Pend) (s : State) : State :=
  finish (s.setR (crcFoldT p.r0 (consumedBytes p.d0 (countOfArg arg))))

/-- `CRC.UPD.S nb` (R71, R101): completion. -/
def completeCrcUpdS (arg : BitVec 2) (p : Pend) (s : State) : State :=
  finish (s.setR (crcFold p.r0 (consumedBytes p.d0 (countOfArg arg))))

end Sys2Proof.Machine
end

