-- ==== Sys2Proof/Machine/Dispatch.lean ====
section
/-! DEFINITION. One arm for each command: what a host write of its word to `CMD` does (spec/30_encoding.md R45,
20_memory.md R32). The result of a multi-cycle command is written by the unit's step (Machine/Unit.lean). -/

namespace Sys2Proof.Machine

def exec (i : Instr) (s : State) : Host.Outcome State Fault Refusal :=
  match i with
  | .nop => Sys2Proof.Machine.execNop s
  | .crcInit => Sys2Proof.Machine.execCrcInit s
  | .crcUpdT nb => Sys2Proof.Machine.execCrcUpdT nb s
  | .crcUpdS nb => Sys2Proof.Machine.execCrcUpdS nb s
  | .fxQ17S => Sys2Proof.Machine.execFxQ17S s
  | .fxQ21S => Sys2Proof.Machine.execFxQ21S s
  | .fxQ15U => Sys2Proof.Machine.execFxQ15U s
  | .errClr => Sys2Proof.Machine.execErrClr s

end Sys2Proof.Machine
end

