-- ==== Sys2Proof/Machine/Bus.lean ====
section
/-! DEFINITION. The bus port: acceptance of a command word and the two access primitives (spec/20_memory.md R30 to
R37, 30_encoding.md R45). -/

namespace Sys2Proof.Machine

/-- 30_encoding.md R45: `accept(w)`. A word that is not legal raises `IllegalCommand` and has no other effect. -/
def accept (e : Engines) (w : Word) (s : State) : Host.Outcome State Fault Refusal :=
  match decodeWord e w with
  | .ok i => exec i s
  | .error _ => .next (raise (.illegalCommand w) s)

/-- R35: the access is 32 bits wide and aligned. -/
def accessOk (off : Offset) (n : Nat) : Bool := n == 4 && aligned off

/-- R31, 70_reset_and_hazards.md R103: whether a read takes a free draw. -/
def takesDraw (reg : WinReg) (s : State) : Bool := reg.anyWhileBusy && s.pend.isSome

/-- R31: what a read returns. -/
def readValue (e : Engines) (reg : WinReg) (s : State) : Word :=
  if takesDraw reg s then Config.anyRead s.port s.draws
  else match reg with
    | .cmd => 0x00000000#32
    | .status => s.status.word
    | .crcState => s.r
    | .crcResult => crcResult s.r
    | .data => s.d
    | .fxRaw => s.xi
    | .fxOut => s.xo
    | .config => configWord e
    | .reserved => 0x00000000#32
    | .table i => tableEntry i

/-- The model's own record of a read: its reply, and a draw counted where one was taken. -/
def recordRead (e : Engines) (off : Offset) (s : State) : State :=
  let t := s.pushRead { off := off, value := readValue e (winReg off) s }
  if takesDraw (winReg off) s then t.countDraw else t

/-- R31: `MemRead(BASE + off, n)`. -/
def memRead (e : Engines) (off : Offset) (n : Nat) (s : State) : Host.Outcome State Fault Refusal :=
  if accessOk off n then .next (recordRead e off s) else .fault (.busFault off)

/-- R32: a write of `v` to a register while no command is pending. -/
def writeReg (e : Engines) (reg : WinReg) (v : Word) (s : State) : Host.Outcome State Fault Refusal :=
  match reg with
  | .cmd => accept e v s
  | .crcState => .next (s.setR v)
  | .data => .next (s.setD v)
  | .fxRaw => .next (s.setXi v)
  | .status => .next s
  | .crcResult => .next s
  | .fxOut => .next s
  | .config => .next s
  | .reserved => .next s
  | .table _ => .next s

/-- R32: `MemWrite(BASE + off, n, v)`; the value of a 4-byte access is its 32 bits (log entry 12). -/
def memWrite (e : Engines) (off : Offset) (n v : Nat) (s : State) : Host.Outcome State Fault Refusal :=
  if accessOk off n then
    if (winReg off).dropsWhileBusy && s.pend.isSome then .next (raise (.busyWrite off) s)
    else writeReg e (winReg off) (BitVec.ofNat 32 v) s
  else .fault (.busFault off)

/-! ## Physical addresses (R28, R30) -/

/-- R30: `off = addr - BASE` where `0 <= off < 0x800`; an access outside the window does not reach the block. -/
def windowOffset (base addr : Nat) : Option Offset :=
  if base ≤ addr ∧ addr < base + Config.windowSize then some (BitVec.ofNat 11 (addr - base)) else none

/-- A host's access at a physical address (00_scope.md R7). -/
inductive MemAccess where
  | memRead (addr n : Nat)
  | memWrite (addr n v : Nat)
  deriving DecidableEq, Repr

/-- The event an access is for the block at `base`, if it reaches that block. -/
def MemAccess.toEvent (base : Nat) : MemAccess → Option Event
  | .memRead addr n => (windowOffset base addr).map (fun off => .read off n)
  | .memWrite addr n v => (windowOffset base addr).map (fun off => .write off n v)

end Sys2Proof.Machine
end

