-- ==== Sys2Proof/Machine/Unit.lean ====
section
/-! DEFINITION. The unit's step, reset, and how each event is served (spec/00_scope.md R11, 70_reset_and_hazards.md). -/

namespace Sys2Proof.Machine

/-- The unit's step (70_reset_and_hazards.md R101): the completion of the pending command. With nothing pending the step
is not enabled and the state stays as it is (log entry 3). -/
def complete (s : State) : State :=
  match s.pend with
  | none => s
  | some p =>
    match p.cmd with
    | .updT arg => completeCrcUpdT arg p s
    | .updS arg => completeCrcUpdS arg p s
    | .q17s => completeFxQ17S p s
    | .q21s => completeFxQ21S p s
    | .q15u => completeFxQ15U p s

/-- Reset (R96): every register to its reset value, the pending command abandoned. The model's own fields stay (log entry 5). -/
def applyReset (s : State) : State :=
  { State.reset with port := s.port, draws := s.draws, reads := s.reads, inputs := s.inputs }

/-- One event is served (20_memory.md R38: one at a time, each before the next), whichever host sent it. DESIGN CHOICE: where
another host's write arrives during a host's message, the result is the one this order computes; R40 calls it not defined, and a
claim about a message takes "no foreign write" as a premise. Log entry 22. -/
def serve (e : Engines) (ev : Event) (s : State) : Host.Outcome State Fault Refusal :=
  match ev with
  | .read off n => memRead e off n s
  | .write off n v => memWrite e off n v s
  | .complete => .next (complete s)
  | .reset => .next (applyReset s)

/-- A list of events is served in order, up to the first fault. -/
def serveAll (e : Engines) : List Event → State → Host.Outcome State Fault Refusal
  | [], s => .next s
  | ev :: rest, s =>
    match serve e ev s with
    | .next t => serveAll e rest t
    | .fault x => .fault x
    | .refused x => .refused x

/-- With no event left the unit's own step is the only one enabled (R102: completion is eventual); an idle block waits.
Log entries 2 and 3. -/
def idle (s : State) : Host.Outcome State Fault Refusal := .next (complete s)

/-- The host's write of the command word `w` to `CMD` (30_encoding.md R42): the event that issues a command. -/
def commandWrite (nbits w : Nat) : Event := .write 0x000#11 4 (w % 2 ^ nbits)

end Sys2Proof.Machine
end

