-- ==== Sys2Proof/Machine/Step.lean ====
section
/-! DEFINITION. One step of the machine: the next event is served. -/

namespace Sys2Proof.Machine

def step (s : State) : Host.Outcome State Fault Refusal :=
  match s.inputs with
  | [] => idle s
  | ev :: rest => serve Config.engines ev (s.setInputs rest)

/-- The host's write of the command `w` to `CMD` is the next event (log entry 1): commands are not fetched (10_state.md
R23), they arrive as data written to `CMD`. -/
def State.withFetchWord (s : State) (nbits w : Nat) : State :=
  s.setInputs (commandWrite nbits w :: s.inputs)

end Sys2Proof.Machine
end

