-- ==== Sys2Proof/Machine/Assembler.lean ====
section
/-! DEFINITION. The assembler syntax of the commands and the pseudo-commands (spec/30_encoding.md R50, R51). A line is a
list of characters; its parts stand between spaces. Log entry 19. -/

namespace Sys2Proof.Machine

/-- The parts of a line; `part` holds the characters of the part being read, last first. -/
def lineParts : List Char → List Char → List (List Char)
  | part, [] => if part.isEmpty then [] else [part.reverse]
  | part, c :: cs =>
    if c = ' ' then
      if part.isEmpty then lineParts [] cs else part.reverse :: lineParts [] cs
    else lineParts (c :: part) cs

/-- R50: `<nb>` is a decimal 1..4; anything else is an assembly error. -/
def countText : List Char → Option Nat
  | ['1'] => some 1
  | ['2'] => some 2
  | ['3'] => some 3
  | ['4'] => some 4
  | _ => none

/-- A mnemonic without an operand (R50), or the pseudo-commands `CRC.BYTE` and `CRC.WORD` (R51). -/
def plainMnemonic (m : List Char) : Option Instr :=
  if m = ['N', 'O', 'P'] then some .nop
  else if m = ['C', 'R', 'C', '.', 'I', 'N', 'I', 'T'] then some .crcInit
  else if m = ['F', 'X', '.', 'Q', '1', '7', 'S'] then some .fxQ17S
  else if m = ['F', 'X', '.', 'Q', '2', '1', 'S'] then some .fxQ21S
  else if m = ['F', 'X', '.', 'Q', '1', '5', 'U'] then some .fxQ15U
  else if m = ['E', 'R', 'R', '.', 'C', 'L', 'R'] then some .errClr
  else if m = ['C', 'R', 'C', '.', 'B', 'Y', 'T', 'E'] then some (.crcUpdT 1)
  else if m = ['C', 'R', 'C', '.', 'W', 'O', 'R', 'D'] then some (.crcUpdT 4)
  else none

/-- The format operand of the pseudo-command `FX.CVT` (R51). -/
def formatText (x : List Char) : Option Instr :=
  if x = ['Q', '1', '7'] then some .fxQ17S
  else if x = ['Q', '2', '1'] then some .fxQ21S
  else if x = ['Q', '1', '5'] then some .fxQ15U
  else none

/-- A mnemonic with its operand (R50), or the pseudo-commands `CRC.UPD` and `FX.CVT` (R51). -/
def operandMnemonic (m x : List Char) : Option Instr :=
  if m = ['C', 'R', 'C', '.', 'U', 'P', 'D', '.', 'T'] then (countText x).map .crcUpdT
  else if m = ['C', 'R', 'C', '.', 'U', 'P', 'D', '.', 'S'] then (countText x).map .crcUpdS
  else if m = ['C', 'R', 'C', '.', 'U', 'P', 'D'] then (countText x).map .crcUpdT
  else if m = ['F', 'X', '.', 'C', 'V', 'T'] then formatText x
  else none

/-- The command a line names; mnemonics are case-insensitive (R50). -/
def assembleInstr (line : List Char) : Option Instr :=
  match lineParts [] (line.map Char.toUpper) with
  | [m] => plainMnemonic m
  | [m, x] => operandMnemonic m x
  | _ => none

/-- The word a line assembles to, or `none` for an assembly error (R50). -/
def assemble (line : List Char) : Option Word := (assembleInstr line).map encode

end Sys2Proof.Machine
end

