-- ==== Sys2Proof/Machine/Binary32.lean ====
section
/-! DEFINITION. What a binary32 pattern stands for (spec/00_scope.md R9), for the statements about the codec. -/

namespace Sys2Proof.Machine

/-- The sign bit of a pattern (R9). -/
def signField (w : Word) : BitVec 1 := w.extractLsb' 31 1
/-- The biased exponent of a pattern (R9). -/
def exponentField (w : Word) : Nat := (w.extractLsb' 23 8).toNat
/-- The fraction of a pattern (R9). -/
def fractionField (w : Word) : Nat := (w.extractLsb' 0 23).toNat

/-- R9: "For a normal number `e` is in 1..254". -/
def isNormal32 (w : Word) : Bool := decide (1 ≤ exponentField w) && decide (exponentField w ≤ 254)

/-- R9: the value of a normal number, `(-1)^s * (1 + f/2^23) * 2^(e-127)`; and 0 for the pattern of +0.0 (10_state.md
R18). It is used on no other pattern. -/
def value32 (w : Word) : ℚ :=
  if w = 0#32 then 0
  else
    (if signField w = 1#1 then -1 else 1) * (1 + (fractionField w : ℚ) / 2 ^ 23) *
      (2 : ℚ) ^ ((exponentField w : ℤ) - 127)

end Sys2Proof.Machine
end

