-- ==== Sys2Proof/Machine/HostProgram.lean ====
section
/-! DEFINITION. The host pseudo-assembly of spec/30_encoding.md R52, the agent that drives one block (00_scope.md R11), and
when its program has ended (70_reset_and_hazards.md R108). It is no part of the block: the machine's own step serves any
events, whatever host sent them. DESIGN CHOICE: the parameter `HOST_ORDER` (20_memory.md R38) is fixed here to strong ordering:
each statement's access reaches the block at once, in program order. Log entries 18 and 24. -/

namespace Sys2Proof.Machine

/-- `buf+j`: `j` a constant or a scratch register. -/
inductive BufIndex where
  | const (j : Nat)
  | reg (k : Fin 8)
  deriving DecidableEq, Repr

/-- The statements of R52. A register name stands as its offset (`WinReg.offset`), a label as the number of its statement. -/
inductive HostStmt where
  /-- `st REG, imm32` -/
  | stImm (off : Offset) (imm : Word)
  /-- `st REG, hK` -/
  | stReg (off : Offset) (k : Fin 8)
  /-- `ld hK, REG` and `ld hK, TABLE[i]` -/
  | ld (k : Fin 8) (off : Offset)
  /-- `cmd MNEMONIC` -/
  | cmd (i : Instr)
  /-- `poll`: `loop: ld h7, STATUS; if h7[0] == 1 goto loop` -/
  | poll
  /-- `ldm hK, buf+j` -/
  | ldm (k : Fin 8) (j : BufIndex)
  /-- `mov hK, imm32` -/
  | mov (k : Fin 8) (imm : Word)
  /-- `add hK, imm32` -/
  | add (k : Fin 8) (imm : Word)
  /-- `blt hK, imm32, L` -/
  | blt (k : Fin 8) (imm : Word) (target : Nat)
  /-- `bne hA, hB, L` -/
  | bne (a b : Fin 8) (target : Nat)
  /-- `L:` -/
  | label
  /-- `halt` -/
  | halt
  deriving DecidableEq, Repr

/-- The values that R108's end state takes from the block. -/
structure RegView where
  r      : Word
  d      : Word
  xi     : Word
  xo     : Word
  status : Word
  deriving DecidableEq, Repr

def regView (s : State) : RegView := { r := s.r, d := s.d, xi := s.xi, xo := s.xo, status := s.status.word }

/-- A host and the block it drives. -/
structure HostRun where
  /-- The scratch registers `h0..h7`. -/
  regs   : Vector Word 8
  /-- The statement the host is at. -/
  pos    : Nat
  /-- `buf`, in the host's memory. -/
  buf    : List Byte
  /-- The program has written a multi-cycle command to `CMD`. -/
  issued : Bool
  /-- The block at the last STATUS read that returned `BUSY = 0`, of those after the last multi-cycle command (R108). -/
  seen   : Option RegView
  /-- What the program's own reads returned, newest first (R108). -/
  reads  : List ReadReply
  dev    : State
  deriving DecidableEq, Repr

/-- A host at its first statement: it has issued no command and read nothing. -/
def HostRun.start (regs : Vector Word 8) (buf : List Byte) (s : State) : HostRun where
  regs := regs
  pos := 0
  buf := buf
  issued := false
  seen := none
  reads := []
  dev := s

/-- A byte of host memory at `buf+j`; past the buffer's end it is the host's (free). -/
def hostMemByte (buf : List Byte) (j : Nat) : Byte := buf.getD j (Config.hostByte j)

/-- `ldm`: the little-endian word of `buf[j..j+3]`. -/
def hostMemWord (buf : List Byte) (j : Nat) : Word :=
  wordOfBytes (hostMemByte buf j) (hostMemByte buf (j + 1)) (hostMemByte buf (j + 2)) (hostMemByte buf (j + 3))

def bufIndexValue (h : HostRun) : BufIndex → Nat
  | .const j => j
  | .reg k => (h.regs[k]).toNat

def hostSetReg (h : HostRun) (k : Fin 8) (v : Word) : HostRun := { h with regs := h.regs.set k v }

def hostGoto (h : HostRun) (n : Nat) : HostRun := { h with pos := n }

/-- Whether a write at `off` issues a multi-cycle command. -/
def issuesMulti (off : Offset) (w : Word) : Bool :=
  match winReg off, decodeWord Config.engines w with
  | .cmd, .ok i => i.isMulti
  | _, _ => false

/-- The host has written `w` at `off`: after a multi-cycle command, no STATUS read has seen it complete (R108). -/
def hostNoteStore (off : Offset) (w : Word) (h : HostRun) : HostRun :=
  if issuesMulti off w then { h with issued := true, seen := none } else h

/-- The host has read `v` at `off`; a STATUS read that shows `BUSY = 0` is where the program's end state is taken, unless a
later one comes (R108; log entry 23). -/
def hostNoteLoad (off : Offset) (v : Word) (h : HostRun) : HostRun :=
  { h with
    reads := { off := off, value := v } :: h.reads
    seen := if winReg off = .status ∧ v.getLsbD 0 = false then some (regView h.dev) else h.seen }

/-- `MemWrite(BASE + off, 4, v)` by the host, served at once (log entry 24), then the next statement. -/
def hostStore (off : Offset) (v : Word) (h : HostRun) : Host.Outcome HostRun Fault Refusal :=
  match memWrite Config.engines off 4 v.toNat h.dev with
  | .next t => .next (hostGoto (hostNoteStore off v { h with dev := t }) (h.pos + 1))
  | .fault x => .fault x
  | .refused x => .refused x

/-- `hK <- MemRead(BASE + off, 4)` by the host, served at once (log entry 24). It stays at its statement: the caller moves on. -/
def hostLoad (k : Fin 8) (off : Offset) (h : HostRun) : Host.Outcome HostRun Fault Refusal :=
  let v := readValue Config.engines (winReg off) h.dev
  match memRead Config.engines off 4 h.dev with
  | .next t => .next (hostSetReg (hostNoteLoad off v { h with dev := t }) k v)
  | .fault x => .fault x
  | .refused x => .refused x

/-- One statement of the host (R52); its access takes effect before the next statement (log entry 24). -/
def hostExec (stmt : HostStmt) (h : HostRun) : Host.Outcome HostRun Fault Refusal :=
  match stmt with
  | .stImm off imm => hostStore off imm h
  | .stReg off k => hostStore off h.regs[k] h
  | .cmd i => hostStore 0x000#11 (encode i) h
  | .ld k off =>
    match hostLoad k off h with
    | .next h' => .next (hostGoto h' (h.pos + 1))
    | .fault x => .fault x
    | .refused x => .refused x
  | .poll =>
    match hostLoad 7 0x004#11 h with
    | .next h' => .next (if h'.regs[7].getLsbD 0 then h' else hostGoto h' (h.pos + 1))
    | .fault x => .fault x
    | .refused x => .refused x
  | .ldm k j => .next (hostGoto (hostSetReg h k (hostMemWord h.buf (bufIndexValue h j))) (h.pos + 1))
  | .mov k imm => .next (hostGoto (hostSetReg h k imm) (h.pos + 1))
  | .add k imm => .next (hostGoto (hostSetReg h k (h.regs[k] + imm)) (h.pos + 1))
  | .blt k imm target => .next (hostGoto h (if (h.regs[k]).toNat < imm.toNat then target else h.pos + 1))
  | .bne a b target => .next (hostGoto h (if h.regs[a] ≠ h.regs[b] then target else h.pos + 1))
  | .label => .next (hostGoto h (h.pos + 1))
  | .halt => .next h

/-- The statement the host is at. -/
def hostStep (prog : List HostStmt) (h : HostRun) : Host.Outcome HostRun Fault Refusal :=
  match prog[h.pos]? with
  | some stmt => hostExec stmt h
  | none => .next h

/-- Whose turn it is (00_scope.md R11); another host may share the block (20_memory.md R40). -/
inductive Turn where
  | host
  | unit
  | reset
  | otherRead (off : Offset) (n : Nat)
  | otherWrite (off : Offset) (n : Nat) (v : Nat)
  deriving DecidableEq, Repr

/-- The host goes on with the block another agent has left. -/
def withDev (h : HostRun) : Host.Outcome State Fault Refusal → Host.Outcome HostRun Fault Refusal
  | .next t => .next { h with dev := t }
  | .fault x => .fault x
  | .refused x => .refused x

/-- One step of the host, its block and whoever else reaches it. -/
def turnStep (prog : List HostStmt) (turn : Turn) (h : HostRun) : Host.Outcome HostRun Fault Refusal :=
  match turn with
  | .host => hostStep prog h
  | .unit => .next { h with dev := complete h.dev }
  | .reset => .next { h with dev := applyReset h.dev }
  | .otherRead off n => withDev h (serve Config.engines (.read off n) h.dev)
  | .otherWrite off n v => withDev h (serve Config.engines (.write off n v) h.dev)

/-- The turns are taken in order, up to the first fault. -/
def runTurns (prog : List HostStmt) : List Turn → HostRun → Host.Outcome HostRun Fault Refusal
  | [], h => .next h
  | turn :: rest, h =>
    match turnStep prog turn h with
    | .next h' => runTurns prog rest h'
    | .fault x => .fault x
    | .refused x => .refused x

/-! ## The end of a program (R108) -/

/-- The premises R108 leaves to a claim: "that no other host wrote the instance in between", "that no reset occurred". -/
def claimPremises (turns : List Turn) : Bool :=
  turns.all fun turn =>
    match turn with
    | .host => true
    | .unit => true
    | .otherRead _ _ => true
    | .otherWrite _ _ _ => false
    | .reset => false

/-- "its last statement has been performed": the host is at a `halt` or past its last statement. -/
def hostAtEnd (prog : List HostStmt) (h : HostRun) : Bool :=
  match prog[h.pos]? with
  | none => true
  | some stmt => decide (stmt = .halt)

/-- The program has ended: its last statement has been performed, and "a `STATUS` read after its last multi-cycle command has
returned `BUSY = 0`", if it issued such a command (log entry 23). -/
def hostEnded (prog : List HostStmt) (h : HostRun) : Bool := hostAtEnd prog h && (h.seen.isSome || !h.issued)

/-- What the end state consists of. -/
structure EndState where
  regs  : RegView
  reads : List ReadReply
  deriving DecidableEq, Repr

/-- "the values of `R`, `D`, `XI`, `XO` and `STATUS` at that read, together with the values its own reads returned". A program that
issued no multi-cycle command and read no STATUS has no such read: the values are those where it ended (log entry 23). -/
def endState (h : HostRun) : EndState := { regs := h.seen.getD (regView h.dev), reads := h.reads }

end Sys2Proof.Machine
end

