-- ==== Sys2Proof/Machine/Platform.lean ====
section
/-! DEFINITION. A platform with several CRCFX blocks, `N_INSTANCES` of them, each with its own window and state
(spec/60_exceptions.md R95). Log entry 17. -/

namespace Sys2Proof.Machine

/-- A block and the physical address of its window. -/
structure Block where
  base : Nat
  dev  : State
  deriving DecidableEq, Repr

/-- The access joins the events of the block whose window it hits, behind those that arrived before (20_memory.md R38). -/
def deliverTo (a : MemAccess) (b : Block) : Block :=
  match a.toEvent b.base with
  | some ev => { b with dev := b.dev.setInputs (b.dev.inputs ++ [ev]) }
  | none => b

/-- A host's access is offered to every block. -/
def deliverAll (a : MemAccess) (p : List Block) : List Block := p.map (deliverTo a)

/-- Every base is a multiple of 0x800 (20_memory.md R28) and no two blocks share a window (R95). -/
def windowsApart (p : List Block) : Prop :=
  (∀ b ∈ p, Config.validBase b.base = true) ∧ p.Pairwise (fun a b => a.base ≠ b.base)

/-- Block `k` takes a step. Its base is its port, so that no two blocks with windows apart share a free draw
(70_reset_and_hazards.md R103). -/
def stepBlock (k : Nat) (p : List Block) : Host.Outcome (List Block) Fault Refusal :=
  match p[k]? with
  | none => .next p
  | some b =>
    match step (b.dev.setPort b.base) with
    | .next t => .next (p.set k { b with dev := t })
    | .fault x => .fault x
    | .refused x => .refused x

end Sys2Proof.Machine
end

