-- ==== Sys2Proof/Safety.lean ====
section
/-! DEFINITION. The invariant of the block, what a run that keeps the spec's rules is, and the vocabulary of the statements
about runs (spec/10_state.md R25, 40_fixed_point.md R60, 70_reset_and_hazards.md R105). -/

namespace Sys2Proof.Machine

/-- R60 (and R32, which drops writes while pending): a pending record's operands are the registers' values. -/
def operandsHeld (s : State) : Bool :=
  match s.pend with
  | none => true
  | some p => decide (p.r0 = s.r) && decide (p.d0 = s.d) && decide (p.x0 = s.xi)

/-- R25: "`STATUS.BUSY` is 1 exactly when `PEND` is not `none`", and the operands are held. -/
abbrev BlockInv (s : State) : Prop := s.status.busy = s.pend.isSome ∧ operandsHeld s = true

/-- A pattern the codec can produce: +0.0 or a normal number with exponent field 106..144 (40_fixed_point.md R54(c), (d)). -/
def codecPattern (w : Word) : Bool :=
  decide (w = 0#32) ||
    (decide (106 ≤ (w.extractLsb' 23 8).toNat) && decide ((w.extractLsb' 23 8).toNat ≤ 144))

/-! ## Runs -/

/-- An access that raises no `BusFault` (20_memory.md R35); any other event. -/
def busClean : Event → Bool
  | .read off n => accessOk off n
  | .write off n _ => accessOk off n
  | .complete => true
  | .reset => true

/-- The accesses that R105 allows only after a poll: a write to `CMD`, `CRC_STATE`, `DATA` or `FX_RAW`, a read of
`CRC_STATE`, `CRC_RESULT` or `FX_OUT`. -/
def needsPoll : Event → Bool
  | .read off _ => (winReg off).anyWhileBusy
  | .write off _ _ => (winReg off).dropsWhileBusy
  | .complete => false
  | .reset => false

/-- R105: no access that needs a poll is served while a command is pending. -/
def keepsHazardRule (e : Engines) : List Event → State → Bool
  | [], _ => true
  | ev :: rest, s =>
    !(needsPoll ev && s.pend.isSome) &&
      match serve e ev s with
      | .next t => keepsHazardRule e rest t
      | .fault _ => true
      | .refused _ => true

/-- What the host does, apart from polling: everything but the unit's turns and reads of `STATUS`. -/
def hostDoes : Event → Bool
  | .read off _ => decide (winReg off ≠ .status)
  | .write _ _ _ => true
  | .complete => false
  | .reset => true

/-- A read of `STATUS`. -/
def isPoll (v : ReadReply) : Bool := decide (winReg v.off = .status)

/-- The two states have the same registers, flags, pending command and replies other than those of polls. -/
def sameForHost (s t : State) : Prop :=
  s.r = t.r ∧ s.d = t.d ∧ s.xi = t.xi ∧ s.xo = t.xo ∧ s.status = t.status ∧ s.pend = t.pend ∧
    s.reads.filter (fun v => !isPoll v) = t.reads.filter (fun v => !isPoll v)

/-- A safe run's end: no error flag is set (70_reset_and_hazards.md R105, 93_implementation_defined.md section 2). -/
def errorFree (s : State) : Bool := !s.status.ill && !s.status.berr

/-- An access to a reserved offset: a claim should not rely on it (93_implementation_defined.md section 2). Log entry 13. -/
def usesReserved : Event → Bool
  | .read off _ => decide (winReg off = .reserved)
  | .write off _ _ => decide (winReg off = .reserved)
  | .complete => false
  | .reset => false

/-! ## Messages -/

/-- One piece of a message: the host writes `data` to `DATA`, issues `CRC.UPD.T nb` or `CRC.UPD.S nb`, and polls; the unit
completes after `early` polls, and the host polls `late` times more. -/
structure Piece where
  serial : Bool
  nb     : Nat
  data   : Word
  early  : Nat
  late   : Nat
  deriving DecidableEq, Repr

def Piece.command (c : Piece) : Instr := if c.serial then .crcUpdS c.nb else .crcUpdT c.nb

/-- The bytes the piece's command absorbs (20_memory.md R34). -/
def Piece.bytes (c : Piece) : List Byte := consumedBytes c.data c.nb

def Piece.events (c : Piece) : List Event :=
  [.write 0x010#11 4 c.data.toNat, .write 0x000#11 4 (encode c.command).toNat] ++
    List.replicate c.early (.read 0x004#11 4) ++ [.complete] ++ List.replicate c.late (.read 0x004#11 4)

/-- `CRC.INIT`, the pieces of a message, and the read of `CRC_RESULT` (41_crc32.md R72). No other host's write stands among
them: the premise of 20_memory.md R40. Log entry 22. -/
def messageEvents (pieces : List Piece) : List Event :=
  [.write 0x000#11 4 (encode .crcInit).toNat] ++ pieces.flatMap Piece.events ++ [.read 0x00C#11 4]

end Sys2Proof.Machine
end

