-- ==== Sys2Proof/Certificates/Slice0/Obligations.lean ====
section
/-! DEFINITION. The statements for the provers: what the numbered rules of spec/ say the block does. -/

open Sys2Proof Sys2Proof.Machine

/-! ## Encoding (30_encoding.md) -/

/-- R47 and R33: the word of a well-formed command decodes to that command, with every operand, from the word and from the
bytes as the window stores them, whatever bytes follow. -/
def Obligations.EncodedCommandsDecodeToThemselves : Prop :=
  ∀ (e : Engines) (i : Instr) (rest : List Byte), i.wellFormed e = true →
    decodeWord e (encode i) = .ok i ∧ decode e (bytesOfWord (encode i) ++ rest) = .ok (i, rest)

/-- R47: each legal word spells one command only, and the command is well formed. -/
def Obligations.DecodedWordsEncodeBack : Prop :=
  ∀ (e : Engines) (w : Word) (i : Instr), decodeWord e w = .ok i → i.wellFormed e = true ∧ encode i = w

/-- R46: `legal(w)` holds exactly under the rule's conditions; the legal words are those the decoder takes; with both
engines they are the rule's 14 words. -/
def Obligations.LegalWordsAreTheFourteen : Prop :=
  (∀ (e : Engines) (w : Word), legal e w = true ↔
    (w.extractLsb' 10 22 = 0#22 ∧
      ((w.extractLsb' 0 8 = 0x00#8 ∧ w.extractLsb' 8 2 = 0b00#2)
        ∨ (w.extractLsb' 0 8 = 0x01#8 ∧ w.extractLsb' 8 2 = 0b00#2)
        ∨ (w.extractLsb' 0 8 = 0x02#8 ∧ e.table = true)
        ∨ (w.extractLsb' 0 8 = 0x03#8 ∧ e.serial = true)
        ∨ (w.extractLsb' 0 8 = 0x04#8 ∧ w.extractLsb' 8 2 ≠ 0b11#2)
        ∨ (w.extractLsb' 0 8 = 0x05#8 ∧ w.extractLsb' 8 2 = 0b00#2)))) ∧
  (∀ (e : Engines) (w : Word), legal e w = true ↔ ∃ i, decodeWord e w = .ok i) ∧
  (∀ w : Word, legal { table := true, serial := true } w = true ↔
    w ∈ [0x00000000#32, 0x00000001#32, 0x00000002#32, 0x00000102#32, 0x00000202#32, 0x00000302#32, 0x00000003#32,
         0x00000103#32, 0x00000203#32, 0x00000303#32, 0x00000004#32, 0x00000104#32, 0x00000204#32, 0x00000005#32])

/-- R47: no word spells two rows of the opcode map; a word spells a row exactly when it is legal with both engines; and the
row it spells has the mnemonic and the class of the command it decodes to. -/
def Obligations.OpcodeRowsAgreeWithTheDecoder : Prop :=
  opcodeTable.Pairwise (fun a b => ∀ w : Word, ¬ (a.spells w = true ∧ b.spells w = true)) ∧
  (∀ w : Word, (∃ row ∈ opcodeTable, row.spells w = true) ↔ ∃ i, decodeWord Config.engines w = .ok i) ∧
  (∀ (w : Word) (i : Instr) (row : OpRow), decodeWord Config.engines w = .ok i → row ∈ opcodeTable →
    row.spells w = true → row.mnemonic = i.mnemonic ∧ row.multi = i.isMulti)

/-- R48, R86: each reserved encoding of R48's list, and so every word that is not legal, written to `CMD` while nothing is pending,
raises `IllegalCommand`: `ILL` is set and nothing else happens. -/
def Obligations.ReservedEncodingsAreIllegal : Prop :=
  ∀ (e : Engines) (w : Word) (s : State), s.pend = none →
    (w.extractLsb' 10 22 ≠ 0#22
      ∨ 0x06 ≤ (w.extractLsb' 0 8).toNat
      ∨ (w.extractLsb' 0 8 = 0x04#8 ∧ w.extractLsb' 8 2 = 0b11#2)
      ∨ (w.extractLsb' 0 8 ∈ [0x00#8, 0x01#8, 0x05#8] ∧ w.extractLsb' 8 2 ≠ 0b00#2)
      ∨ (w.extractLsb' 0 8 = 0x02#8 ∧ e.table = false)
      ∨ (w.extractLsb' 0 8 = 0x03#8 ∧ e.serial = false)
      ∨ legal e w = false) →
    memWrite e 0x000#11 4 w.toNat s = .next (raise (.illegalCommand w) s) ∧
      raise (.illegalCommand w) s = { s with status := { s.status with ill := true } }

/-- Sanity: words written out from R47 decode to the commands they stand for. -/
def Obligations.SampleWordsDecode : Prop :=
  decodeTableWord 32 0x00000000 = some .nop ∧ decodeTableWord 32 0x00000001 = some .crcInit ∧
    decodeTableWord 32 0x00000302 = some (.crcUpdT 4) ∧ decodeTableWord 32 0x00000003 = some (.crcUpdS 1) ∧
    decodeTableWord 32 0x00000104 = some .fxQ21S ∧ decodeTableWord 32 0x00000005 = some .errClr ∧
    decodeTableWord 32 0x00000304 = none ∧ decodeTableWord 32 0x00000402 = none

/-- R50, R51: every mnemonic and every pseudo-command assembles to R47's word, with every count 1..4; the case of the letters does
not matter; any other text in the place of the count is an assembly error (that a count is one digit, and that operands too are read
in either case, is the model's choice, log entry 19). -/
def Obligations.AssemblerGivesTheWords : Prop :=
  (∀ line ∈ [
      (['N', 'O', 'P'], 0x00000000#32),
      (['C', 'R', 'C', '.', 'I', 'N', 'I', 'T'], 0x00000001#32),
      (['F', 'X', '.', 'Q', '1', '7', 'S'], 0x00000004#32),
      (['F', 'X', '.', 'Q', '2', '1', 'S'], 0x00000104#32),
      (['F', 'X', '.', 'Q', '1', '5', 'U'], 0x00000204#32),
      (['E', 'R', 'R', '.', 'C', 'L', 'R'], 0x00000005#32),
      (['F', 'X', '.', 'C', 'V', 'T', ' ', 'Q', '1', '7'], 0x00000004#32),
      (['F', 'X', '.', 'C', 'V', 'T', ' ', 'Q', '2', '1'], 0x00000104#32),
      (['F', 'X', '.', 'C', 'V', 'T', ' ', 'Q', '1', '5'], 0x00000204#32),
      (['C', 'R', 'C', '.', 'B', 'Y', 'T', 'E'], 0x00000002#32),
      (['C', 'R', 'C', '.', 'W', 'O', 'R', 'D'], 0x00000302#32)],
    assemble line.1 = some line.2) ∧
  (∀ count ∈ [('1', 0x00000002#32, 0x00000003#32), ('2', 0x00000102#32, 0x00000103#32),
      ('3', 0x00000202#32, 0x00000203#32), ('4', 0x00000302#32, 0x00000303#32)],
    assemble ['C', 'R', 'C', '.', 'U', 'P', 'D', '.', 'T', ' ', count.1] = some count.2.1 ∧
    assemble ['C', 'R', 'C', '.', 'U', 'P', 'D', '.', 'S', ' ', count.1] = some count.2.2 ∧
    assemble ['C', 'R', 'C', '.', 'U', 'P', 'D', ' ', count.1] = some count.2.1) ∧
  (∀ x : List Char, ' ' ∉ x → x ∉ [['1'], ['2'], ['3'], ['4']] →
    assemble (['C', 'R', 'C', '.', 'U', 'P', 'D', '.', 'T', ' '] ++ x) = none ∧
    assemble (['C', 'R', 'C', '.', 'U', 'P', 'D', '.', 'S', ' '] ++ x) = none ∧
    assemble (['C', 'R', 'C', '.', 'U', 'P', 'D', ' '] ++ x) = none) ∧
  (∀ line : List Char, assemble (line.map Char.toUpper) = assemble line ∧ assemble (line.map Char.toLower) = assemble line)

/-! ## The step -/

/-- R45, R32: when the next event is a write to `CMD` of a word that decodes to a command, the step is `exec` of that command at
the state with the event taken; so it is after `withFetchWord`, which changes nothing but the event list. A step serves any next event
(log entry 1), and with none left it is the unit's own step (log entry 2). -/
def Obligations.StepRunsTheDecodedCommand : Prop :=
  (∀ (s : State) (w : Word) (i : Instr), decodeWord Config.engines w = .ok i →
    (∀ rest, s.inputs = .write 0x000#11 4 w.toNat :: rest → step s = exec i { s with inputs := rest }) ∧
    step (s.withFetchWord 32 w.toNat) = exec i s ∧
    s.withFetchWord 32 w.toNat = { s with inputs := .write 0x000#11 4 w.toNat :: s.inputs }) ∧
  (∀ (s : State) (ev : Event) (rest : List Event), s.inputs = ev :: rest →
    step s = serve Config.engines ev { s with inputs := rest }) ∧
  (∀ s : State, s.inputs = [] → step s = .next (complete s))

/-- R38: accesses are served one at a time in the order they arrive: the machine's run over a list of events is their service in
that order. -/
def Obligations.EventsAreServedInArrivalOrder : Prop :=
  ∀ (evs : List Event) (s : State),
    Host.Core.run core evs.length { s with inputs := evs } = serveAll Config.engines evs { s with inputs := [] }

/-! ## The commands: encoding, effect, exceptions -/

/-- R80: `NOP`. -/
def Obligations.NopDoesNothing : Prop :=
  encode .nop = 0x00000000#32 ∧
  ∀ s : State,
    (s.pend = none → exec .nop s = .next s) ∧
    (s.pend ≠ none → exec .nop s = .next { s with status := { s.status with berr := true } }) ∧
    (∀ (e : Engines) (w : Word), s.pend = none → w.extractLsb' 0 8 = 0x00#8 → w ≠ 0x00000000#32 →
      accept e w s = .next { s with status := { s.status with ill := true } })

/-- R81: `ERR.CLR`. -/
def Obligations.ErrClrClearsTheStickyFlags : Prop :=
  encode .errClr = 0x00000005#32 ∧
  ∀ s : State,
    (s.pend = none → exec .errClr s = .next { s with status := { s.status with ill := false, berr := false } }) ∧
    (s.pend ≠ none → exec .errClr s = .next { s with status := { s.status with berr := true } }) ∧
    (∀ (e : Engines) (w : Word), s.pend = none → w.extractLsb' 0 8 = 0x05#8 → w ≠ 0x00000005#32 →
      accept e w s = .next { s with status := { s.status with ill := true } })

/-- R69: `CRC.INIT`; right after it `CRC_RESULT` reads 0. -/
def Obligations.CrcInitStartsAMessage : Prop :=
  encode .crcInit = 0x00000001#32 ∧
  ∀ s : State,
    (s.pend = none →
      exec .crcInit s = .next { s with r := 0xFFFFFFFF#32 } ∧
      exec .crcInit { s with r := 0xFFFFFFFF#32 } = .next { s with r := 0xFFFFFFFF#32 } ∧
      (∀ e : Engines, readValue e .crcResult { s with r := 0xFFFFFFFF#32 } = 0x00000000#32)) ∧
    (s.pend ≠ none → exec .crcInit s = .next { s with status := { s.status with berr := true } }) ∧
    (∀ (e : Engines) (w : Word), s.pend = none → w.extractLsb' 0 8 = 0x01#8 → w ≠ 0x00000001#32 →
      accept e w s = .next { s with status := { s.status with ill := true } })

/-- R70: `CRC.UPD.T nb`: its words, acceptance, completion by the table-driven engine over the first `nb` bytes of `D`,
exceptions, corner cases and example. -/
def Obligations.CrcUpdTAbsorbsBytes : Prop :=
  (encode (.crcUpdT 1) = 0x00000002#32 ∧ encode (.crcUpdT 2) = 0x00000102#32 ∧
    encode (.crcUpdT 3) = 0x00000202#32 ∧ encode (.crcUpdT 4) = 0x00000302#32) ∧
  (∀ (nb : Nat) (s : State), 1 ≤ nb → nb ≤ 4 →
    (s.pend = none → ∃ t, exec (.crcUpdT nb) s = .next t ∧
      t = { s with pend := some { cmd := .updT (BitVec.ofNat 2 (nb - 1)), r0 := s.r, d0 := s.d, x0 := s.xi }
                   status := { s.status with busy := true } } ∧
      complete t = { s with r := crcFoldT s.r ((bytesOfWord s.d).take nb)
                            pend := none, status := { s.status with busy := false } }) ∧
    (s.pend ≠ none → exec (.crcUpdT nb) s = .next { s with status := { s.status with berr := true } }) ∧
    crcFoldT 0#32 ((bytesOfWord 0#32).take nb) = 0#32) ∧
  (∀ (e : Engines) (w : Word) (s : State), s.pend = none → w.extractLsb' 0 8 = 0x02#8 →
    (e.table = false ∨ w.extractLsb' 10 22 ≠ 0#22) →
    accept e w s = .next { s with status := { s.status with ill := true } }) ∧
  crcByteT 0xFFFFFFFF#32 0x00#8 = 0x2DFD1072#32 ∧ crcByteT 0x80000000#32 0x00#8 = 0x00800000#32 ∧
  crcFoldT 0xFFFFFFFF#32 ((bytesOfWord 0x34333231#32).take 4) = 0x641C1F5C#32 ∧
  crcResult 0x641C1F5C#32 = 0x9BE3E0A3#32

/-- R71: `CRC.UPD.S nb`: the same with the bit-serial engine; its result equals that of `CRC.UPD.T nb`. -/
def Obligations.CrcUpdSAbsorbsBytes : Prop :=
  (encode (.crcUpdS 1) = 0x00000003#32 ∧ encode (.crcUpdS 2) = 0x00000103#32 ∧
    encode (.crcUpdS 3) = 0x00000203#32 ∧ encode (.crcUpdS 4) = 0x00000303#32) ∧
  (∀ (nb : Nat) (s : State), 1 ≤ nb → nb ≤ 4 →
    (s.pend = none → ∃ t, exec (.crcUpdS nb) s = .next t ∧
      t = { s with pend := some { cmd := .updS (BitVec.ofNat 2 (nb - 1)), r0 := s.r, d0 := s.d, x0 := s.xi }
                   status := { s.status with busy := true } } ∧
      complete t = { s with r := crcFold s.r ((bytesOfWord s.d).take nb)
                            pend := none, status := { s.status with busy := false } } ∧
      ∃ u, exec (.crcUpdT nb) s = .next u ∧ complete u = complete t) ∧
    (s.pend ≠ none → exec (.crcUpdS nb) s = .next { s with status := { s.status with berr := true } })) ∧
  (∀ (e : Engines) (w : Word) (s : State), s.pend = none → w.extractLsb' 0 8 = 0x03#8 →
    (e.serial = false ∨ w.extractLsb' 10 22 ≠ 0#22) →
    accept e w s = .next { s with status := { s.status with ill := true } }) ∧
  crcFold 0xFFFFFFFF#32 ((bytesOfWord 0x00000031#32).take 1) = 0x7C231048#32

/-- R55: `FX.Q17S`: its word, acceptance, completion, the busy write, corner cases and example. -/
def Obligations.FxQ17SConverts : Prop :=
  encode .fxQ17S = 0x00000004#32 ∧
  (∀ s : State,
    (s.pend = none → ∃ t, exec .fxQ17S s = .next t ∧
      t = { s with pend := some { cmd := .q17s, r0 := s.r, d0 := s.d, x0 := s.xi }
                   status := { s.status with busy := true } } ∧
      complete t = { s with xo := fxToBinary32 s.xi.toInt 17
                            pend := none, status := { s.status with busy := false } }) ∧
    (s.pend ≠ none → exec .fxQ17S s = .next { s with status := { s.status with berr := true } })) ∧
  fxToBinary32 (0x00000000#32).toInt 17 = 0x00000000#32 ∧ fxToBinary32 (0x80000000#32).toInt 17 = 0xC6800000#32 ∧
  fxToBinary32 (0x7FFFFFFF#32).toInt 17 = 0x46800000#32 ∧ fxToBinary32 (0xFFFFFFFF#32).toInt 17 = 0xB7000000#32 ∧
  fxToBinary32 (0x00020000#32).toInt 17 = 0x3F800000#32

/-- R56: `FX.Q21S`. -/
def Obligations.FxQ21SConverts : Prop :=
  encode .fxQ21S = 0x00000104#32 ∧
  (∀ s : State,
    (s.pend = none → ∃ t, exec .fxQ21S s = .next t ∧
      t = { s with pend := some { cmd := .q21s, r0 := s.r, d0 := s.d, x0 := s.xi }
                   status := { s.status with busy := true } } ∧
      complete t = { s with xo := fxToBinary32 s.xi.toInt 21
                            pend := none, status := { s.status with busy := false } }) ∧
    (s.pend ≠ none → exec .fxQ21S s = .next { s with status := { s.status with berr := true } })) ∧
  fxToBinary32 (0x80000000#32).toInt 21 = 0xC4800000#32 ∧ fxToBinary32 (0x7FFFFFFF#32).toInt 21 = 0x44800000#32 ∧
  fxToBinary32 (0x00000001#32).toInt 21 = 0x35000000#32 ∧ fxToBinary32 (0x00200000#32).toInt 21 = 0x3F800000#32

/-- R57: `FX.Q15U`: the raw value is unsigned, so the result is never negative. -/
def Obligations.FxQ15UConverts : Prop :=
  encode .fxQ15U = 0x00000204#32 ∧
  (∀ s : State,
    (s.pend = none → ∃ t, exec .fxQ15U s = .next t ∧
      t = { s with pend := some { cmd := .q15u, r0 := s.r, d0 := s.d, x0 := s.xi }
                   status := { s.status with busy := true } } ∧
      complete t = { s with xo := fxToBinary32 (Int.ofNat s.xi.toNat) 15
                            pend := none, status := { s.status with busy := false } } ∧
      (complete t).xo.getLsbD 31 = false) ∧
    (s.pend ≠ none → exec .fxQ15U s = .next { s with status := { s.status with berr := true } })) ∧
  fxToBinary32 0x80000000 15 = 0x47800000#32 ∧ fxToBinary32 0xFFFFFFFF 15 = 0x48000000#32 ∧
  fxToBinary32 0xFFFFFFFE 15 = 0x48000000#32 ∧ fxToBinary32 0x00008000 15 = 0x3F800000#32

/-- R27, the writes of the table: what a write of any command leaves unchanged, idle or busy. `FX_OUT` and `FX_RAW` and `DATA` are
never written at acceptance, `R` by `CRC.INIT` only, `ILL` by `ERR.CLR` only, `BUSY` and `PEND` by a multi-cycle command only; the
table's entries and `CONFIG` read as before (the block has no other memory). -/
def Obligations.CommandFrame : Prop :=
  ∀ (i : Instr) (s t : State), exec i s = .next t →
    t.d = s.d ∧ t.xi = s.xi ∧ t.xo = s.xo ∧ t.port = s.port ∧ t.draws = s.draws ∧ t.reads = s.reads ∧ t.inputs = s.inputs ∧
    (i ≠ .crcInit → t.r = s.r) ∧
    (i ≠ .errClr → t.status.ill = s.status.ill) ∧
    (s.pend = none → i ≠ .errClr → t.status.berr = s.status.berr) ∧
    (i.isMulti = false → t.pend = s.pend ∧ t.status.busy = s.status.busy) ∧
    (s.pend ≠ none → t.r = s.r ∧ t.pend = s.pend ∧ t.status.busy = s.status.busy ∧ t.status.ill = s.status.ill) ∧
    (∀ (e : Engines) (j : BitVec 8), readValue e (.table j) t = readValue e (.table j) s) ∧
    (∀ e : Engines, readValue e .config t = readValue e .config s)

/-! ## Acceptance and completion -/

/-- R45, R100: `accept(w)` is what a write of `w` to `CMD` does while nothing is pending, and while a command is pending the write raises
`BusyWrite` whatever the word. An illegal word raises `IllegalCommand`; a single-cycle command executes and nothing becomes pending; a
multi-cycle command is recorded with its opcode, its `ARG` and the operands, `BUSY` is set, and nothing else changes. -/
def Obligations.AcceptanceRecordsTheCommand : Prop :=
  (∀ (e : Engines) (w : Word) (s : State), s.pend = none → memWrite e 0x000#11 4 w.toNat s = accept e w s) ∧
  (∀ (e : Engines) (w : Word) (s : State), s.pend ≠ none →
    memWrite e 0x000#11 4 w.toNat s = .next (raise (.busyWrite 0x000#11) s) ∧
      raise (.busyWrite 0x000#11) s = { s with status := { s.status with berr := true } }) ∧
  ∀ (e : Engines) (w : Word) (s : State), s.pend = none →
    (legal e w = false → accept e w s = .next { s with status := { s.status with ill := true } }) ∧
    (∀ i, decodeWord e w = .ok i → i.isMulti = false →
      ∃ t, accept e w s = exec i s ∧ exec i s = .next t ∧ t.pend = none ∧ t.status.busy = s.status.busy) ∧
    (∀ i, decodeWord e w = .ok i → i.isMulti = true →
      ∃ cmd : PendCmd, cmd.op = w.extractLsb' 0 8 ∧ cmd.arg = w.extractLsb' 8 2 ∧ cmd.instr = i ∧
        accept e w s = .next { s with pend := some { cmd := cmd, r0 := s.r, d0 := s.d, x0 := s.xi }
                                      status := { s.status with busy := true } })

/-- R101: completion, by the pending record's opcode and `ARG`; with nothing pending there is no completion (log entry 3). -/
def Obligations.CompletionWritesTheResult : Prop :=
  (∀ (s : State) (p : Pend), s.pend = some p →
    (p.cmd.op = 0x02#8 → complete s =
      { s with r := crcFoldT p.r0 ((bytesOfWord p.d0).take (p.cmd.arg.toNat + 1))
               pend := none, status := { s.status with busy := false } }) ∧
    (p.cmd.op = 0x03#8 → complete s =
      { s with r := crcFold p.r0 ((bytesOfWord p.d0).take (p.cmd.arg.toNat + 1))
               pend := none, status := { s.status with busy := false } }) ∧
    (p.cmd.op = 0x04#8 → p.cmd.arg = 0b00#2 → complete s =
      { s with xo := fxToBinary32 p.x0.toInt 17, pend := none, status := { s.status with busy := false } }) ∧
    (p.cmd.op = 0x04#8 → p.cmd.arg = 0b01#2 → complete s =
      { s with xo := fxToBinary32 p.x0.toInt 21, pend := none, status := { s.status with busy := false } }) ∧
    (p.cmd.op = 0x04#8 → p.cmd.arg = 0b10#2 → complete s =
      { s with xo := fxToBinary32 (Int.ofNat p.x0.toNat) 15, pend := none
               status := { s.status with busy := false } }) ∧
    (p.cmd.op ∈ [0x02#8, 0x03#8, 0x04#8] ∧ (p.cmd.op = 0x04#8 → p.cmd.arg ≠ 0b11#2))) ∧
  (∀ s : State, s.pend = none → complete s = s)

/-- R102: in a run whose accesses raise no bus fault, a pending command is no longer pending after at most one step more than
there are events; unless a reset came first, `R` and `XO` are then what its completion gives. (That the unit completes when no event is
left is the model's reading of the rule's fairness, log entry 2.) -/
def Obligations.PendingCommandsComplete : Prop :=
  ∀ s : State, s.pend ≠ none → s.inputs.all busClean = true →
    ∃ (k : Nat) (t : State), k ≤ s.inputs.length + 1 ∧ Host.Core.run core k s = .next t ∧ t.pend = none ∧
      (.reset ∈ s.inputs.take k ∨ (t.r = (complete s).r ∧ t.xo = (complete s).xo))

/-! ## The register window -/

/-- R19, R39: the `STATUS` word has `BUSY` in bit 0, `ILL` in bit 1, `BERR` in bit 2 and zeros above; in a state that meets the
invariant a read of it returns `BUSY` = 0 exactly when no command is pending. -/
def Obligations.StatusReadsTheFlags : Prop :=
  (∀ st : Status, st.word.getLsbD 0 = st.busy ∧ st.word.getLsbD 1 = st.ill ∧ st.word.getLsbD 2 = st.berr ∧
    ∀ k, 3 ≤ k → st.word.getLsbD k = false) ∧
  (∀ (e : Engines) (s : State), BlockInv s → ((readValue e .status s).getLsbD 0 = false ↔ s.pend = none))

/-- R31: `MemRead` at every offset, idle and pending; a read changes no register, flag or pending record.
(That a read is recorded, and that the free draw is the one at the block's port and count, is the model's choice, log entries 4, 5.) -/
def Obligations.ReadsFollowTheRegisterMap : Prop :=
  ∀ (e : Engines) (off : Offset) (n : Nat) (s : State),
    ((n ≠ 4 ∨ off.extractLsb' 0 2 ≠ 0#2) → memRead e off n s = .fault (.busFault off)) ∧
    (n = 4 → off.extractLsb' 0 2 = 0#2 → ∃ v : Word,
      memRead e off n s = .next { s with
        reads := { off := off, value := v } :: s.reads
        draws := if s.pend ≠ none ∧ off ∈ [0x008#11, 0x00C#11, 0x018#11] then s.draws + 1 else s.draws } ∧
      (off = 0x000#11 → v = 0x00000000#32) ∧
      (off = 0x004#11 → v = s.status.word) ∧
      (off = 0x008#11 → v = if s.pend = none then s.r else Config.anyRead s.port s.draws) ∧
      (off = 0x00C#11 → v = if s.pend = none then s.r ^^^ 0xFFFFFFFF#32 else Config.anyRead s.port s.draws) ∧
      (off = 0x010#11 → v = s.d) ∧
      (off = 0x014#11 → v = s.xi) ∧
      (off = 0x018#11 → v = if s.pend = none then s.xo else Config.anyRead s.port s.draws) ∧
      (off = 0x01C#11 → v = configWord e) ∧
      (0x400 ≤ off.toNat → v = tableEntry (BitVec.ofNat 8 ((off.toNat - 0x400) / 4))) ∧
      (0x020 ≤ off.toNat → off.toNat < 0x400 → v = 0x00000000#32))

/-- R32: `MemWrite` at every offset, idle and pending. -/
def Obligations.WritesFollowTheRegisterMap : Prop :=
  ∀ (e : Engines) (off : Offset) (n : Nat) (v : Word) (s : State),
    ((n ≠ 4 ∨ off.extractLsb' 0 2 ≠ 0#2) → memWrite e off n v.toNat s = .fault (.busFault off)) ∧
    (n = 4 → off.extractLsb' 0 2 = 0#2 →
      (s.pend ≠ none → off ∈ [0x000#11, 0x008#11, 0x010#11, 0x014#11] →
        memWrite e off n v.toNat s = .next { s with status := { s.status with berr := true } }) ∧
      (s.pend = none → off = 0x000#11 → memWrite e off n v.toNat s = accept e v s) ∧
      (s.pend = none → off = 0x008#11 → memWrite e off n v.toNat s = .next { s with r := v }) ∧
      (s.pend = none → off = 0x010#11 → memWrite e off n v.toNat s = .next { s with d := v }) ∧
      (s.pend = none → off = 0x014#11 → memWrite e off n v.toNat s = .next { s with xi := v }) ∧
      (off ∉ [0x000#11, 0x008#11, 0x010#11, 0x014#11] → memWrite e off n v.toNat s = .next s))

/-- R35, R85: an access faults exactly when it is not 32 bits wide or not aligned, the step that serves it stops with that fault,
and the event changes no state. -/
def Obligations.BusFaultExactly : Prop :=
  ∀ (e : Engines) (off : Offset) (n v : Nat) (s : State),
    (memRead e off n s = .fault (.busFault off) ↔ (n ≠ 4 ∨ off.extractLsb' 0 2 ≠ 0#2)) ∧
    (memWrite e off n v s = .fault (.busFault off) ↔ (n ≠ 4 ∨ off.extractLsb' 0 2 ≠ 0#2)) ∧
    raise (.busFault off) s = s ∧
    (∀ (rest : List Event) (ev : Event), s.inputs = ev :: rest → (ev = .read off n ∨ ev = .write off n v) →
      (n ≠ 4 ∨ off.extractLsb' 0 2 ≠ 0#2) → step s = .fault (.busFault off))

/-- R87, R104: a write to `CMD`, `CRC_STATE`, `DATA` or `FX_RAW` while a command is pending sets `BERR` and nothing else, whatever the
word; the command's completion is as if the write had not happened; a write to any other aligned offset is ignored. -/
def Obligations.BusyWritesAreDropped : Prop :=
  ∀ (e : Engines) (off : Offset) (v : Nat) (s : State), s.pend ≠ none →
    (off ∈ [0x000#11, 0x008#11, 0x010#11, 0x014#11] →
      ∃ t, memWrite e off 4 v s = .next t ∧ t = { s with status := { s.status with berr := true } } ∧
        complete t = { complete s with status := { (complete s).status with berr := true } }) ∧
    (off ∉ [0x000#11, 0x008#11, 0x010#11, 0x014#11] → off.extractLsb' 0 2 = 0#2 →
      memWrite e off 4 v s = .next s)

/-- R37: writes to read-only registers, the table and reserved offsets have no effect, busy or not; reserved offsets read 0. -/
def Obligations.ReadOnlyWritesAreIgnored : Prop :=
  ∀ (e : Engines) (off : Offset) (v : Nat) (s : State), off.extractLsb' 0 2 = 0#2 →
    ((off ∈ [0x004#11, 0x00C#11, 0x018#11, 0x01C#11] ∨ 0x020 ≤ off.toNat) → memWrite e off 4 v s = .next s) ∧
    (0x020 ≤ off.toNat → off.toNat < 0x400 →
      memRead e off 4 s = .next { s with reads := { off := off, value := 0x00000000#32 } :: s.reads })

/-- R36: reads change nothing of the block; a second equal write to `DATA`, `CRC_STATE` or `FX_RAW` changes nothing more; a second
write of a command may. -/
def Obligations.ReadsAndWritesRepeat : Prop :=
  (∀ (e : Engines) (off : Offset) (n : Nat) (s t : State), memRead e off n s = .next t →
    t.r = s.r ∧ t.d = s.d ∧ t.xi = s.xi ∧ t.xo = s.xo ∧ t.status = s.status ∧ t.pend = s.pend) ∧
  (∀ (e : Engines) (off : Offset) (n v : Nat) (s t : State), off ∈ [0x008#11, 0x010#11, 0x014#11] →
    memWrite e off n v s = .next t → memWrite e off n v t = .next t) ∧
  (∃ (w : Nat) (s t u : State), memWrite Config.engines 0x000#11 4 w s = .next t ∧
    memWrite Config.engines 0x000#11 4 w t = .next u ∧ u ≠ t)

/-- R15: `CRC_RESULT` is a view of `R`. -/
def Obligations.CrcResultIsAView : Prop :=
  (∀ (e : Engines) (s : State), s.pend = none →
    memRead e 0x00C#11 4 s = .next { s with reads := { off := 0x00C#11, value := s.r ^^^ 0xFFFFFFFF#32 } :: s.reads }) ∧
  (∀ (e : Engines) (v : Nat) (s : State), memWrite e 0x00C#11 4 v s = .next s) ∧
  (∀ e : Engines, readValue e .crcResult State.reset = 0x00000000#32)

/-- R20: `CONFIG` reports the engines, reads 3 with both present in every state, and ignores writes. -/
def Obligations.ConfigIsConstant : Prop :=
  (∀ e : Engines, (configWord e).getLsbD 0 = e.table ∧ (configWord e).getLsbD 1 = e.serial ∧
    ∀ k, 2 ≤ k → (configWord e).getLsbD k = false) ∧
  (∀ s : State, memRead Config.engines 0x01C#11 4 s =
    .next { s with reads := { off := 0x01C#11, value := 0x00000003#32 } :: s.reads }) ∧
  (∀ (e : Engines) (v : Nat) (s : State), memWrite e 0x01C#11 4 v s = .next s)

/-- R65, R77, R78: the table's entries are those the rule lists, each is the bit-serial byte function from 0, and a read returns them
at any time, pending or not. -/
def Obligations.TableReadsTheListing : Prop :=
  romListing.length = 256 ∧
  (∀ n : BitVec 8, romListing[n.toNat]? = some (tableEntry n) ∧ tableEntry n = crcByteS 0#32 n) ∧
  (∀ (e : Engines) (n : BitVec 8) (s : State),
    memRead e (BitVec.ofNat 11 (0x400 + 4 * n.toNat)) 4 s = .next { s with
      reads := { off := BitVec.ofNat 11 (0x400 + 4 * n.toNat), value := tableEntry n } :: s.reads })

/-- R33, R34: little-endian byte lanes, and the order in which a CRC command consumes the bytes of `D`. -/
def Obligations.ByteLanesAreLittleEndian : Prop :=
  (∀ b0 b1 b2 b3 : Byte, bytesOfWord (wordOfBytes b0 b1 b2 b3) = [b0, b1, b2, b3]) ∧
  (∀ (v : Word) (k : Nat), k < 4 → byteOf v k = BitVec.ofNat 8 (v.toNat / 2 ^ (8 * k))) ∧
  (∀ (d : Word) (nb : Nat), nb ≤ 4 → consumedBytes d nb = (bytesOfWord d).take nb)

/-! ## Who writes which register: rules over all events -/

/-- R14: `CRC_STATE` changes only by `CRC.INIT`, by a completed `CRC.UPD.T` or `CRC.UPD.S`, by a host write to it, or by reset. -/
def Obligations.CrcStateChangesOnlyAsListed : Prop :=
  ∀ s t : State, step s = .next t → t.r = s.r ∨
    (∃ rest, s.inputs = .reset :: rest ∧ t.r = 0xFFFFFFFF#32) ∨
    (∃ v rest, s.pend = none ∧ s.inputs = .write 0x008#11 4 v :: rest ∧ t.r = BitVec.ofNat 32 v) ∨
    (∃ v rest, s.pend = none ∧ s.inputs = .write 0x000#11 4 v :: rest ∧ BitVec.ofNat 32 v = encode .crcInit ∧
      t.r = 0xFFFFFFFF#32) ∨
    (∃ p, s.pend = some p ∧ (s.inputs = [] ∨ ∃ rest, s.inputs = .complete :: rest) ∧
      (p.cmd.op = 0x02#8 ∨ p.cmd.op = 0x03#8) ∧
      t.r = crcFold p.r0 ((bytesOfWord p.d0).take (p.cmd.arg.toNat + 1)))

/-- R16, R17: `DATA` and `FX_RAW` change only by a host write to them while nothing is pending, or by reset; they read back what was
written. -/
def Obligations.OperandsChangeOnlyByHostWrites : Prop :=
  (∀ s t : State, step s = .next t →
    (t.d = s.d ∨
      (∃ rest, s.inputs = .reset :: rest ∧ t.d = 0x00000000#32) ∨
      (∃ v rest, s.pend = none ∧ s.inputs = .write 0x010#11 4 v :: rest ∧ t.d = BitVec.ofNat 32 v)) ∧
    (t.xi = s.xi ∨
      (∃ rest, s.inputs = .reset :: rest ∧ t.xi = 0x00000000#32) ∨
      (∃ v rest, s.pend = none ∧ s.inputs = .write 0x014#11 4 v :: rest ∧ t.xi = BitVec.ofNat 32 v))) ∧
  (∀ (e : Engines) (v : Word) (s : State), s.pend = none →
    (∃ t, memWrite e 0x010#11 4 v.toNat s = .next t ∧ readValue e .data t = v) ∧
    (∃ t, memWrite e 0x014#11 4 v.toNat s = .next t ∧ readValue e .fxRaw t = v))

/-- R18, R61: `FX_OUT` changes only by the completion of an `FX.*` command, which writes the pattern of the operand taken at
acceptance, or by reset. -/
def Obligations.FxOutChangesOnlyByCompletion : Prop :=
  ∀ s t : State, step s = .next t → t.xo = s.xo ∨
    (∃ rest, s.inputs = .reset :: rest ∧ t.xo = 0x00000000#32) ∨
    (∃ p, s.pend = some p ∧ (s.inputs = [] ∨ ∃ rest, s.inputs = .complete :: rest) ∧
      ((p.cmd = .q17s ∧ t.xo = fxToBinary32 p.x0.toInt 17) ∨ (p.cmd = .q21s ∧ t.xo = fxToBinary32 p.x0.toInt 21) ∨
        (p.cmd = .q15u ∧ t.xo = fxToBinary32 (Int.ofNat p.x0.toNat) 15)))

/-- R21: a command becomes pending only by a host write to `CMD` of its word; a read of `CMD` returns 0 and has no effect. -/
def Obligations.OnlyCmdWritesIssueCommands : Prop :=
  (∀ (s t : State) (p : Pend), step s = .next t → s.pend = none → t.pend = some p →
    ∃ v rest, s.inputs = .write 0x000#11 4 v :: rest ∧
      decodeWord Config.engines (BitVec.ofNat 32 v) = .ok p.cmd.instr) ∧
  (∀ (e : Engines) (s : State), memRead e 0x000#11 4 s =
    .next { s with reads := { off := 0x000#11, value := 0x00000000#32 } :: s.reads })

/-- R88: `ILL` and `BERR` stay set until `ERR.CLR` is accepted or reset; an event adds to the flags and clears none. -/
def Obligations.ErrorFlagsAreSticky : Prop :=
  (∀ s t : State, step s = .next t →
    ((s.status.ill = true ∧ t.status.ill = false) ∨ (s.status.berr = true ∧ t.status.berr = false)) →
    (∃ rest, s.inputs = .reset :: rest) ∨
    (∃ v rest, s.pend = none ∧ s.inputs = .write 0x000#11 4 v :: rest ∧ BitVec.ofNat 32 v = encode .errClr)) ∧
  (∀ (ev : ErrorEvent) (s : State),
    (s.status.ill = true → (raise ev s).status.ill = true) ∧ (s.status.berr = true → (raise ev s).status.berr = true)) ∧
  (∀ (w : Word) (off : Offset) (s : State),
    (raise (.illegalCommand w) s).status.ill = true ∧ (raise (.busyWrite off) s).status.berr = true)

/-- R89: one access raises at most one event, the first of `BusFault`, `BusyWrite`, `IllegalCommand` that applies. -/
def Obligations.OneEventByPriority : Prop :=
  ∀ (e : Engines) (off : Offset) (n : Nat) (v : Word) (s : State),
    ((n ≠ 4 ∨ off.extractLsb' 0 2 ≠ 0#2) → memWrite e off n v.toNat s = .fault (.busFault off)) ∧
    (n = 4 → off.extractLsb' 0 2 = 0#2 → off ∈ [0x000#11, 0x008#11, 0x010#11, 0x014#11] → s.pend ≠ none →
      memWrite e off n v.toNat s = .next (raise (.busyWrite off) s)) ∧
    (n = 4 → off = 0x000#11 → s.pend = none → legal e v = false →
      memWrite e off n v.toNat s = .next (raise (.illegalCommand v) s)) ∧
    (∀ t, memWrite e off n v.toNat s = .next t →
      ¬ (s.status.ill = false ∧ t.status.ill = true ∧ s.status.berr = false ∧ t.status.berr = true))

/-! ## Invariants -/

/-- R25, R60: `BUSY` is 1 exactly when a command is pending, and the pending operands are the registers' values; every step
keeps it. -/
def Obligations.BusyMatchesPendAlways : Prop :=
  ∀ s t : State, BlockInv s → step s = .next t → BlockInv t

/-- R25, R26: it holds after reset. -/
def Obligations.BusyMatchesPendAtReset : Prop :=
  BlockInv State.reset ∧ ∀ s : State, BlockInv (applyReset s)

/-- R54(c), (d) with R18: `FX_OUT` only ever holds +0.0 or a normal number with exponent field 106..144; every step keeps it, and it
holds after reset. -/
def Obligations.FxOutIsAlwaysACodecPattern : Prop :=
  (∀ s t : State, codecPattern s.xo = true → step s = .next t → codecPattern t.xo = true) ∧
    codecPattern State.reset.xo = true

/-- R52 `poll`, R105: when the host's `poll` moves on, no command is pending. R108: the end state is then the block's at that read; a
write after it that issues no multi-cycle command, and a turn of the unit, leave the end state so; and after a write of a multi-cycle
command the program has not ended until a STATUS read has returned `BUSY` = 0 (that a later such read counts is the
model's choice, log entry 23, and so is the host's strong ordering, log entry 24). -/
def Obligations.HostPollWaitsForCompletion : Prop :=
  (∀ (prog : List HostStmt) (h h' : HostRun), prog[h.pos]? = some .poll → BlockInv h.dev →
    hostStep prog h = .next h' →
      (h'.pos = h.pos + 1 ∧ h'.dev.pend = none ∧ h'.seen = some (regView h'.dev) ∧ (endState h').regs = regView h'.dev) ∨
        (h'.pos = h.pos ∧ h.dev.pend ≠ none ∧ h'.seen = h.seen)) ∧
  (∀ (off : Offset) (v : Word) (h h' : HostRun), hostStore off v h = .next h' → issuesMulti off v = false →
    h.seen ≠ none → endState h' = endState h) ∧
  (∀ (prog : List HostStmt) (h : HostRun), h.seen ≠ none →
    ∃ h', turnStep prog .unit h = .next h' ∧ endState h' = endState h) ∧
  (∀ (prog : List HostStmt) (off : Offset) (v : Word) (h h' : HostRun), hostStore off v h = .next h' →
    issuesMulti off v = true → hostEnded prog h' = false)

/-! ## Reset -/

/-- R26: the state after reset, with the views `CRC_RESULT`, `STATUS` and `CONFIG`. -/
def Obligations.ResetLeavesTheListedValues : Prop :=
  State.reset.r = 0xFFFFFFFF#32 ∧ State.reset.d = 0x00000000#32 ∧ State.reset.xi = 0x00000000#32 ∧
    State.reset.xo = 0x00000000#32 ∧ State.reset.status = { busy := false, ill := false, berr := false } ∧
    State.reset.pend = none ∧ readValue Config.engines .crcResult State.reset = 0x00000000#32 ∧
    readValue Config.engines .status State.reset = 0x00000000#32 ∧
    readValue Config.engines .config State.reset = 0x00000003#32 ∧
    ∀ n : BitVec 8, some (readValue Config.engines (.table n) State.reset) = romListing[n.toNat]?

/-- R96: a reset event in any state gives every register its reset value and abandons the pending command, whose result is then never
written; `T` and `CONFIG` read as before. The model's own fields stay (log entry 5). -/
def Obligations.ResetAbandonsThePendingCommand : Prop :=
  ∀ (e : Engines) (s : State), ∃ t, serve e .reset s = .next t ∧
    t = { r := 0xFFFFFFFF#32, d := 0x00000000#32, xi := 0x00000000#32, xo := 0x00000000#32,
          status := { busy := false, ill := false, berr := false }, pend := none,
          port := s.port, draws := s.draws, reads := s.reads, inputs := s.inputs } ∧
    complete t = t ∧
    (∀ j : BitVec 8, readValue e (.table j) t = readValue e (.table j) s) ∧
    readValue e .config t = readValue e .config s

/-! ## The CRC -/

/-- R63, R64: the step and the bit-serial byte function, with the rules' examples. -/
def Obligations.CrcStepAndByteExamples : Prop :=
  (∀ r : Word, (r.getLsbD 0 = true → crcStep r = (r >>> 1) ^^^ 0xEDB88320#32) ∧
    (r.getLsbD 0 = false → crcStep r = r >>> 1)) ∧
  (∀ (r : Word) (b : Byte), crcByteS r b =
    crcStep (crcStep (crcStep (crcStep (crcStep (crcStep (crcStep (crcStep (r ^^^ b.setWidth 32))))))))) ∧
  crcStep 0x00000001#32 = 0xEDB88320#32 ∧ crcStep 0x00000002#32 = 0x00000001#32 ∧
  crcStep 0xFFFFFFFF#32 = 0x92477CDF#32 ∧ crcByteS 0xFFFFFFFF#32 0x31#8 = 0x7C231048#32

/-- R67: the engines are equivalent: the table-driven byte function is the bit-serial one, for every register value and byte. -/
def Obligations.EnginesAreEquivalent : Prop :=
  ∀ (r : Word) (b : Byte), crcByteT r b = crcByteS r b

/-- R67 step 1, R75: the step and the fold are linear over XOR; for messages of equal length the CRCs differ by the fold of the
difference. -/
def Obligations.CrcIsLinear : Prop :=
  (∀ x y : Word, crcStep (x ^^^ y) = crcStep x ^^^ crcStep y) ∧
  (∀ (r r' : Word) (m m' : List Byte), m.length = m'.length →
    crcFold (r ^^^ r') (List.zipWith (· ^^^ ·) m m') = crcFold r m ^^^ crcFold r' m') ∧
  (∀ m m' : List Byte, m.length = m'.length → crc32 m ^^^ crc32 m' = crcFold 0#32 (List.zipWith (· ^^^ ·) m m'))

/-- R68: the CRC of a message; of the empty message it is 0. -/
def Obligations.Crc32OfAMessage : Prop :=
  (∀ m : List Byte, crc32 m = m.foldl crcByteS 0xFFFFFFFF#32 ^^^ 0xFFFFFFFF#32 ∧
    crc32 m = m.foldl crcByteT 0xFFFFFFFF#32 ^^^ 0xFFFFFFFF#32) ∧
  crc32 [] = 0x00000000#32

/-- R72, R73: `CRC.INIT`, then any pieces of a message by either engine, each polled any number of times before and after its
completion, then a read of `CRC_RESULT`: the read returns the CRC of the concatenated bytes. The events of a message hold no other
write and no reset, so R40's premise that no other host writes in between stands in their form (log entry 22). -/
def Obligations.MessagesGetTheirCrc : Prop :=
  ∀ (pieces : List Piece) (s : State), s.pend = none → (∀ c ∈ pieces, 1 ≤ c.nb ∧ c.nb ≤ 4) →
    ∃ t, serveAll Config.engines (messageEvents pieces) s = .next t ∧
      t.r = crcFold 0xFFFFFFFF#32 (pieces.flatMap Piece.bytes) ∧
      t.reads.head? = some { off := 0x00C#11, value := crc32 (pieces.flatMap Piece.bytes) } ∧
      t.pend = none ∧ t.xi = s.xi ∧ t.xo = s.xo ∧ t.status.ill = s.status.ill ∧ t.status.berr = s.status.berr

/-- R74: suspending and resuming a message: a host write sets `R`; the fold of a concatenation is the fold of the second part from
the first part's register; writing 0xFFFFFFFF equals `CRC.INIT`; a known CRC `c` continues from `c ^ 0xFFFFFFFF`. -/
def Obligations.MessagesSuspendAndResume : Prop :=
  (∀ (e : Engines) (v : Word) (s : State), s.pend = none → memWrite e 0x008#11 4 v.toNat s = .next { s with r := v }) ∧
  (∀ (r : Word) (a b : List Byte), crcFold r (a ++ b) = crcFold (crcFold r a) b) ∧
  (∀ (e : Engines) (s : State), s.pend = none → memWrite e 0x008#11 4 0xFFFFFFFF s = exec .crcInit s) ∧
  (∀ a b : List Byte, crcResult (crcFold (crc32 a ^^^ 0xFFFFFFFF#32) b) = crc32 (a ++ b))

/-- R75: a message with one byte changed, so with one bit or one hex nibble changed, has another CRC. -/
def Obligations.ByteErrorsAreDetected : Prop :=
  ∀ (m m' : List Byte) (b b' : Byte), b ≠ b' → crc32 (m ++ b :: m') ≠ crc32 (m ++ b' :: m')

/-- R76: the residue. -/
def Obligations.ResidueIsConstant : Prop :=
  ∀ m : List Byte, crcFold 0xFFFFFFFF#32 (m ++ bytesOfWord (crc32 m)) = 0xDEBB20E3#32 ∧
    crcResult 0xDEBB20E3#32 = 0x2144DF1C#32

/-! ## The codec -/

/-- R54(a): the result is the binary32 value nearest to `v / 2^n`, and among two equally near the one with the even fraction. -/
def Obligations.CodecRoundsToNearestEven : Prop :=
  ∀ (v : Int) (n : Nat) (w : Word), -(2 ^ 31) ≤ v → v ≤ 2 ^ 32 - 1 → n ∈ [15, 17, 21] →
    (w = 0#32 ∨ isNormal32 w = true) →
    |value32 (fxToBinary32 v n) - (v : ℚ) / 2 ^ n| ≤ |value32 w - (v : ℚ) / 2 ^ n| ∧
    (|value32 (fxToBinary32 v n) - (v : ℚ) / 2 ^ n| = |value32 w - (v : ℚ) / 2 ^ n| →
      value32 w = value32 (fxToBinary32 v n) ∨ (fxToBinary32 v n).getLsbD 0 = false)

/-- R54(b): the result is exact when and only when `|v|` has at most 24 significant bits. -/
def Obligations.CodecIsExactUpTo24Bits : Prop :=
  ∀ (v : Int) (n : Nat), -(2 ^ 31) ≤ v → v ≤ 2 ^ 32 - 1 → n ∈ [15, 17, 21] →
    (value32 (fxToBinary32 v n) = (v : ℚ) / 2 ^ n ↔ ∃ q k : Nat, v.natAbs = q * 2 ^ k ∧ q < 2 ^ 24)

/-- R54(c), (d): a non-zero input gives a normal number of its sign with exponent field 106..144; zero gives +0.0. -/
def Obligations.CodecResultsAreNormal : Prop :=
  ∀ (v : Int) (n : Nat), -(2 ^ 31) ≤ v → v ≤ 2 ^ 32 - 1 → n ∈ [15, 17, 21] →
    (v = 0 → fxToBinary32 v n = 0x00000000#32) ∧
    (v ≠ 0 → 106 ≤ exponentField (fxToBinary32 v n) ∧ exponentField (fxToBinary32 v n) ≤ 144 ∧
      (fxToBinary32 v n).getLsbD 31 = decide (v < 0))

/-- R59: the result ranges and the smallest non-zero magnitudes of the three formats, all bounds attained. -/
def Obligations.CodecRanges : Prop :=
  (∀ x : Word, |value32 (fxQ17S x)| ≤ 16384 ∧ (x ≠ 0#32 → 1 / 2 ^ 17 ≤ |value32 (fxQ17S x)|)) ∧
  (∀ x : Word, |value32 (fxQ21S x)| ≤ 1024 ∧ (x ≠ 0#32 → 1 / 2 ^ 21 ≤ |value32 (fxQ21S x)|)) ∧
  (∀ x : Word, 0 ≤ value32 (fxQ15U x) ∧ value32 (fxQ15U x) ≤ 131072 ∧ (x ≠ 0#32 → 1 / 2 ^ 15 ≤ value32 (fxQ15U x))) ∧
  value32 (fxQ17S 0x80000000#32) = -16384 ∧ value32 (fxQ17S 0x7FFFFFFF#32) = 16384 ∧
  value32 (fxQ21S 0x80000000#32) = -1024 ∧ value32 (fxQ21S 0x7FFFFFFF#32) = 1024 ∧
  value32 (fxQ15U 0xFFFFFFFF#32) = 131072 ∧
  value32 (fxQ17S 0x00000001#32) = 1 / 2 ^ 17 ∧ value32 (fxQ21S 0x00000001#32) = 1 / 2 ^ 21 ∧
  value32 (fxQ15U 0x00000001#32) = 1 / 2 ^ 15 ∧ value32 (fxQ15U 0x00000000#32) = 0

/-- R60, R61: converting again in the same format gives the same state, and a conversion leaves `XI`, `R` and `D` as they were. -/
def Obligations.ConversionsRepeat : Prop :=
  ∀ (i : Instr) (s : State), i ∈ [Instr.fxQ17S, .fxQ21S, .fxQ15U] → s.pend = none →
    ∃ t u, exec i s = .next t ∧ exec i (complete t) = .next u ∧ complete u = complete t ∧
      (complete t).xi = s.xi ∧ (complete t).r = s.r ∧ (complete t).d = s.d

/-! ## The hazard rule -/

/-- R105: two runs from one state in which the host does the same and keeps the hazard rule end alike, once the pending command is
complete, wherever the unit's turns and the polls fall. -/
def Obligations.HazardFreeRunsAgree : Prop :=
  ∀ (evs evs' : List Event) (s t t' : State),
    keepsHazardRule Config.engines evs s = true → keepsHazardRule Config.engines evs' s = true →
    evs.filter hostDoes = evs'.filter hostDoes →
    serveAll Config.engines evs s = .next t → serveAll Config.engines evs' s = .next t' →
    sameForHost (complete t) (complete t')

/-- R105(a): a run that keeps the hazard rule raises no `BusyWrite`. -/
def Obligations.HazardFreeRunsLoseNoWrite : Prop :=
  ∀ (evs : List Event) (s t : State), keepsHazardRule Config.engines evs s = true →
    serveAll Config.engines evs s = .next t → s.status.berr = false → t.status.berr = false

/-! ## Several blocks -/

/-- R28, R30: an address reaches a block exactly when it lies in its window, at the offset `addr - BASE`. R95: a step of one block
is the machine's step with the block's base as its port (so blocks with windows apart share no free draw, R103, log entry 17) and leaves
every other block as it was, and an access that does not hit a block's window leaves it as it was; with windows apart it hits one
block at most. -/
def Obligations.BlocksAreIndependent : Prop :=
  (∀ (base addr : Nat) (off : Offset),
    windowOffset base addr = some off ↔ (base ≤ addr ∧ addr < base + 0x800 ∧ off.toNat = addr - base)) ∧
  (∀ (p p' : List Block) (k : Nat) (b : Block), p[k]? = some b → stepBlock k p = .next p' →
    ∃ t, step (b.dev.setPort b.base) = .next t ∧ p'[k]? = some { base := b.base, dev := t } ∧ t.port = b.base) ∧
  (∀ (p p' : List Block) (k j : Nat), stepBlock k p = .next p' → j ≠ k → p'[j]? = p[j]?) ∧
  (∀ (a : MemAccess) (b : Block), a.toEvent b.base = none → deliverTo a b = b) ∧
  (∀ (a : MemAccess) (p : List Block) (i j : Nat) (b c : Block), windowsApart p → p[i]? = some b → p[j]? = some c →
    i ≠ j → deliverTo a b = b ∨ deliverTo a c = c)
end

