-- ==== Sys2Proof/Laws/State.lean ====
section
/-! SUPPORT. One lemma for each field and each named update of State, and for each flag and each update of STATUS. -/

namespace Sys2Proof.Machine

variable (s : State)

/-! ### State.setR -/

@[simp] theorem State.setR_r (v : Word) : (s.setR v).r = v := rfl
@[simp] theorem State.setR_d (v : Word) : (s.setR v).d = s.d := rfl
@[simp] theorem State.setR_xi (v : Word) : (s.setR v).xi = s.xi := rfl
@[simp] theorem State.setR_xo (v : Word) : (s.setR v).xo = s.xo := rfl
@[simp] theorem State.setR_status (v : Word) : (s.setR v).status = s.status := rfl
@[simp] theorem State.setR_pend (v : Word) : (s.setR v).pend = s.pend := rfl
@[simp] theorem State.setR_port (v : Word) : (s.setR v).port = s.port := rfl
@[simp] theorem State.setR_draws (v : Word) : (s.setR v).draws = s.draws := rfl
@[simp] theorem State.setR_reads (v : Word) : (s.setR v).reads = s.reads := rfl
@[simp] theorem State.setR_inputs (v : Word) : (s.setR v).inputs = s.inputs := rfl

/-! ### State.setD -/

@[simp] theorem State.setD_r (v : Word) : (s.setD v).r = s.r := rfl
@[simp] theorem State.setD_d (v : Word) : (s.setD v).d = v := rfl
@[simp] theorem State.setD_xi (v : Word) : (s.setD v).xi = s.xi := rfl
@[simp] theorem State.setD_xo (v : Word) : (s.setD v).xo = s.xo := rfl
@[simp] theorem State.setD_status (v : Word) : (s.setD v).status = s.status := rfl
@[simp] theorem State.setD_pend (v : Word) : (s.setD v).pend = s.pend := rfl
@[simp] theorem State.setD_port (v : Word) : (s.setD v).port = s.port := rfl
@[simp] theorem State.setD_draws (v : Word) : (s.setD v).draws = s.draws := rfl
@[simp] theorem State.setD_reads (v : Word) : (s.setD v).reads = s.reads := rfl
@[simp] theorem State.setD_inputs (v : Word) : (s.setD v).inputs = s.inputs := rfl

/-! ### State.setXi -/

@[simp] theorem State.setXi_r (v : Word) : (s.setXi v).r = s.r := rfl
@[simp] theorem State.setXi_d (v : Word) : (s.setXi v).d = s.d := rfl
@[simp] theorem State.setXi_xi (v : Word) : (s.setXi v).xi = v := rfl
@[simp] theorem State.setXi_xo (v : Word) : (s.setXi v).xo = s.xo := rfl
@[simp] theorem State.setXi_status (v : Word) : (s.setXi v).status = s.status := rfl
@[simp] theorem State.setXi_pend (v : Word) : (s.setXi v).pend = s.pend := rfl
@[simp] theorem State.setXi_port (v : Word) : (s.setXi v).port = s.port := rfl
@[simp] theorem State.setXi_draws (v : Word) : (s.setXi v).draws = s.draws := rfl
@[simp] theorem State.setXi_reads (v : Word) : (s.setXi v).reads = s.reads := rfl
@[simp] theorem State.setXi_inputs (v : Word) : (s.setXi v).inputs = s.inputs := rfl

/-! ### State.setXo -/

@[simp] theorem State.setXo_r (v : Word) : (s.setXo v).r = s.r := rfl
@[simp] theorem State.setXo_d (v : Word) : (s.setXo v).d = s.d := rfl
@[simp] theorem State.setXo_xi (v : Word) : (s.setXo v).xi = s.xi := rfl
@[simp] theorem State.setXo_xo (v : Word) : (s.setXo v).xo = v := rfl
@[simp] theorem State.setXo_status (v : Word) : (s.setXo v).status = s.status := rfl
@[simp] theorem State.setXo_pend (v : Word) : (s.setXo v).pend = s.pend := rfl
@[simp] theorem State.setXo_port (v : Word) : (s.setXo v).port = s.port := rfl
@[simp] theorem State.setXo_draws (v : Word) : (s.setXo v).draws = s.draws := rfl
@[simp] theorem State.setXo_reads (v : Word) : (s.setXo v).reads = s.reads := rfl
@[simp] theorem State.setXo_inputs (v : Word) : (s.setXo v).inputs = s.inputs := rfl

/-! ### State.setStatus -/

@[simp] theorem State.setStatus_r (v : Status) : (s.setStatus v).r = s.r := rfl
@[simp] theorem State.setStatus_d (v : Status) : (s.setStatus v).d = s.d := rfl
@[simp] theorem State.setStatus_xi (v : Status) : (s.setStatus v).xi = s.xi := rfl
@[simp] theorem State.setStatus_xo (v : Status) : (s.setStatus v).xo = s.xo := rfl
@[simp] theorem State.setStatus_status (v : Status) : (s.setStatus v).status = v := rfl
@[simp] theorem State.setStatus_pend (v : Status) : (s.setStatus v).pend = s.pend := rfl
@[simp] theorem State.setStatus_port (v : Status) : (s.setStatus v).port = s.port := rfl
@[simp] theorem State.setStatus_draws (v : Status) : (s.setStatus v).draws = s.draws := rfl
@[simp] theorem State.setStatus_reads (v : Status) : (s.setStatus v).reads = s.reads := rfl
@[simp] theorem State.setStatus_inputs (v : Status) : (s.setStatus v).inputs = s.inputs := rfl

/-! ### State.setPend -/

@[simp] theorem State.setPend_r (v : Option Pend) : (s.setPend v).r = s.r := rfl
@[simp] theorem State.setPend_d (v : Option Pend) : (s.setPend v).d = s.d := rfl
@[simp] theorem State.setPend_xi (v : Option Pend) : (s.setPend v).xi = s.xi := rfl
@[simp] theorem State.setPend_xo (v : Option Pend) : (s.setPend v).xo = s.xo := rfl
@[simp] theorem State.setPend_status (v : Option Pend) : (s.setPend v).status = s.status := rfl
@[simp] theorem State.setPend_pend (v : Option Pend) : (s.setPend v).pend = v := rfl
@[simp] theorem State.setPend_port (v : Option Pend) : (s.setPend v).port = s.port := rfl
@[simp] theorem State.setPend_draws (v : Option Pend) : (s.setPend v).draws = s.draws := rfl
@[simp] theorem State.setPend_reads (v : Option Pend) : (s.setPend v).reads = s.reads := rfl
@[simp] theorem State.setPend_inputs (v : Option Pend) : (s.setPend v).inputs = s.inputs := rfl

/-! ### State.setPort -/

@[simp] theorem State.setPort_r (v : Nat) : (s.setPort v).r = s.r := rfl
@[simp] theorem State.setPort_d (v : Nat) : (s.setPort v).d = s.d := rfl
@[simp] theorem State.setPort_xi (v : Nat) : (s.setPort v).xi = s.xi := rfl
@[simp] theorem State.setPort_xo (v : Nat) : (s.setPort v).xo = s.xo := rfl
@[simp] theorem State.setPort_status (v : Nat) : (s.setPort v).status = s.status := rfl
@[simp] theorem State.setPort_pend (v : Nat) : (s.setPort v).pend = s.pend := rfl
@[simp] theorem State.setPort_port (v : Nat) : (s.setPort v).port = v := rfl
@[simp] theorem State.setPort_draws (v : Nat) : (s.setPort v).draws = s.draws := rfl
@[simp] theorem State.setPort_reads (v : Nat) : (s.setPort v).reads = s.reads := rfl
@[simp] theorem State.setPort_inputs (v : Nat) : (s.setPort v).inputs = s.inputs := rfl

/-! ### State.countDraw -/

@[simp] theorem State.countDraw_r : s.countDraw.r = s.r := rfl
@[simp] theorem State.countDraw_d : s.countDraw.d = s.d := rfl
@[simp] theorem State.countDraw_xi : s.countDraw.xi = s.xi := rfl
@[simp] theorem State.countDraw_xo : s.countDraw.xo = s.xo := rfl
@[simp] theorem State.countDraw_status : s.countDraw.status = s.status := rfl
@[simp] theorem State.countDraw_pend : s.countDraw.pend = s.pend := rfl
@[simp] theorem State.countDraw_port : s.countDraw.port = s.port := rfl
@[simp] theorem State.countDraw_draws : s.countDraw.draws = s.draws + 1 := rfl
@[simp] theorem State.countDraw_reads : s.countDraw.reads = s.reads := rfl
@[simp] theorem State.countDraw_inputs : s.countDraw.inputs = s.inputs := rfl

/-! ### State.pushRead -/

@[simp] theorem State.pushRead_r (v : ReadReply) : (s.pushRead v).r = s.r := rfl
@[simp] theorem State.pushRead_d (v : ReadReply) : (s.pushRead v).d = s.d := rfl
@[simp] theorem State.pushRead_xi (v : ReadReply) : (s.pushRead v).xi = s.xi := rfl
@[simp] theorem State.pushRead_xo (v : ReadReply) : (s.pushRead v).xo = s.xo := rfl
@[simp] theorem State.pushRead_status (v : ReadReply) : (s.pushRead v).status = s.status := rfl
@[simp] theorem State.pushRead_pend (v : ReadReply) : (s.pushRead v).pend = s.pend := rfl
@[simp] theorem State.pushRead_port (v : ReadReply) : (s.pushRead v).port = s.port := rfl
@[simp] theorem State.pushRead_draws (v : ReadReply) : (s.pushRead v).draws = s.draws := rfl
@[simp] theorem State.pushRead_reads (v : ReadReply) : (s.pushRead v).reads = v :: s.reads := rfl
@[simp] theorem State.pushRead_inputs (v : ReadReply) : (s.pushRead v).inputs = s.inputs := rfl

/-! ### State.setInputs -/

@[simp] theorem State.setInputs_r (v : List Event) : (s.setInputs v).r = s.r := rfl
@[simp] theorem State.setInputs_d (v : List Event) : (s.setInputs v).d = s.d := rfl
@[simp] theorem State.setInputs_xi (v : List Event) : (s.setInputs v).xi = s.xi := rfl
@[simp] theorem State.setInputs_xo (v : List Event) : (s.setInputs v).xo = s.xo := rfl
@[simp] theorem State.setInputs_status (v : List Event) : (s.setInputs v).status = s.status := rfl
@[simp] theorem State.setInputs_pend (v : List Event) : (s.setInputs v).pend = s.pend := rfl
@[simp] theorem State.setInputs_port (v : List Event) : (s.setInputs v).port = s.port := rfl
@[simp] theorem State.setInputs_draws (v : List Event) : (s.setInputs v).draws = s.draws := rfl
@[simp] theorem State.setInputs_reads (v : List Event) : (s.setInputs v).reads = s.reads := rfl
@[simp] theorem State.setInputs_inputs (v : List Event) : (s.setInputs v).inputs = v := rfl

/-! ### STATUS -/

variable (st : Status)

@[simp] theorem Status.setBusy_busy : st.setBusy.busy = true := rfl
@[simp] theorem Status.setBusy_ill : st.setBusy.ill = st.ill := rfl
@[simp] theorem Status.setBusy_berr : st.setBusy.berr = st.berr := rfl
@[simp] theorem Status.clearBusy_busy : st.clearBusy.busy = false := rfl
@[simp] theorem Status.clearBusy_ill : st.clearBusy.ill = st.ill := rfl
@[simp] theorem Status.clearBusy_berr : st.clearBusy.berr = st.berr := rfl
@[simp] theorem Status.setIll_busy : st.setIll.busy = st.busy := rfl
@[simp] theorem Status.setIll_ill : st.setIll.ill = true := rfl
@[simp] theorem Status.setIll_berr : st.setIll.berr = st.berr := rfl
@[simp] theorem Status.setBerr_busy : st.setBerr.busy = st.busy := rfl
@[simp] theorem Status.setBerr_ill : st.setBerr.ill = st.ill := rfl
@[simp] theorem Status.setBerr_berr : st.setBerr.berr = true := rfl
@[simp] theorem Status.clearErrors_busy : st.clearErrors.busy = st.busy := rfl
@[simp] theorem Status.clearErrors_ill : st.clearErrors.ill = false := rfl
@[simp] theorem Status.clearErrors_berr : st.clearErrors.berr = false := rfl

/-! ### The register views of the flags -/

/-- Each flag stands at its bit of the `STATUS` word (10_state.md R19). -/
theorem Status.word_bits : st.word.getLsbD 0 = st.busy ∧ st.word.getLsbD 1 = st.ill ∧ st.word.getLsbD 2 = st.berr := by
  rcases st with ⟨b, i, e⟩
  cases b <;> cases i <;> cases e <;> decide

/-- Bits 31:3 of the `STATUS` word are zero (10_state.md R19). -/
theorem Status.word_reserved : st.word.extractLsb' 3 29 = 0#29 := by
  rcases st with ⟨b, i, e⟩
  cases b <;> cases i <;> cases e <;> decide

end Sys2Proof.Machine
end

