-- ==== Sys2Proof/Laws/Ops.lean ====
section
/-! SUPPORT. What each shared operation of the commands does, once; the statements' proofs cite these. -/

namespace Sys2Proof.Machine

variable (s : State)

/-! ### raise and recover -/

@[simp] theorem raise_busFault (off : Offset) : raise (.busFault off) s = s := rfl
@[simp] theorem raise_illegalCommand (w : Word) : raise (.illegalCommand w) s = s.setStatus s.status.setIll := rfl
@[simp] theorem raise_busyWrite (off : Offset) : raise (.busyWrite off) s = s.setStatus s.status.setBerr := rfl
theorem recover_eq : recover s = s.setStatus s.status.clearErrors := rfl

/-! ### issue -/

theorem issue_idle {f : State → State} (h : s.pend = none) : issue f s = .next (f s) := by
  simp [issue, h]

theorem issue_busy {f : State → State} {p : Pend} (h : s.pend = some p) :
    issue f s = .next (s.setStatus s.status.setBerr) := by
  simp [issue, h]

/-- Everything a write of a command can do. -/
theorem issue_cases {f : State → State} {t : State} (h : issue f s = .next t) :
    (s.pend = none ∧ t = f s) ∨ (∃ p, s.pend = some p ∧ t = s.setStatus s.status.setBerr) := by
  cases hp : s.pend with
  | none => rw [issue_idle s hp] at h; cases h; exact .inl ⟨rfl, rfl⟩
  | some p => rw [issue_busy s hp] at h; cases h; exact .inr ⟨p, rfl, rfl⟩

/-! ### acceptMulti and finish -/

@[simp] theorem acceptMulti_r (c : PendCmd) : (acceptMulti c s).r = s.r := rfl
@[simp] theorem acceptMulti_d (c : PendCmd) : (acceptMulti c s).d = s.d := rfl
@[simp] theorem acceptMulti_xi (c : PendCmd) : (acceptMulti c s).xi = s.xi := rfl
@[simp] theorem acceptMulti_xo (c : PendCmd) : (acceptMulti c s).xo = s.xo := rfl
@[simp] theorem acceptMulti_status (c : PendCmd) : (acceptMulti c s).status = s.status.setBusy := rfl
@[simp] theorem acceptMulti_pend (c : PendCmd) :
    (acceptMulti c s).pend = some { cmd := c, r0 := s.r, d0 := s.d, x0 := s.xi } := rfl
@[simp] theorem acceptMulti_port (c : PendCmd) : (acceptMulti c s).port = s.port := rfl
@[simp] theorem acceptMulti_draws (c : PendCmd) : (acceptMulti c s).draws = s.draws := rfl
@[simp] theorem acceptMulti_reads (c : PendCmd) : (acceptMulti c s).reads = s.reads := rfl
@[simp] theorem acceptMulti_inputs (c : PendCmd) : (acceptMulti c s).inputs = s.inputs := rfl

@[simp] theorem finish_r : (finish s).r = s.r := rfl
@[simp] theorem finish_d : (finish s).d = s.d := rfl
@[simp] theorem finish_xi : (finish s).xi = s.xi := rfl
@[simp] theorem finish_xo : (finish s).xo = s.xo := rfl
@[simp] theorem finish_status : (finish s).status = s.status.clearBusy := rfl
@[simp] theorem finish_pend : (finish s).pend = none := rfl
@[simp] theorem finish_port : (finish s).port = s.port := rfl
@[simp] theorem finish_draws : (finish s).draws = s.draws := rfl
@[simp] theorem finish_reads : (finish s).reads = s.reads := rfl
@[simp] theorem finish_inputs : (finish s).inputs = s.inputs := rfl

/-! ### The unit's step -/

theorem complete_idle (h : s.pend = none) : complete s = s := by simp [complete, h]

/-- Everything a completion can do: it writes `R` or `XO`, and finishes (70_reset_and_hazards.md R101). -/
theorem complete_pending {p : Pend} (h : s.pend = some p) :
    (∃ a, p.cmd = .updT a ∧ complete s = finish (s.setR (crcFoldT p.r0 (consumedBytes p.d0 (countOfArg a))))) ∨
    (∃ a, p.cmd = .updS a ∧ complete s = finish (s.setR (crcFold p.r0 (consumedBytes p.d0 (countOfArg a))))) ∨
    (p.cmd = .q17s ∧ complete s = finish (s.setXo (fxQ17S p.x0))) ∨
    (p.cmd = .q21s ∧ complete s = finish (s.setXo (fxQ21S p.x0))) ∨
    (p.cmd = .q15u ∧ complete s = finish (s.setXo (fxQ15U p.x0))) := by
  cases hc : p.cmd with
  | updT a => exact .inl ⟨a, rfl, by simp [complete, h, hc, completeCrcUpdT]⟩
  | updS a => exact .inr (.inl ⟨a, rfl, by simp [complete, h, hc, completeCrcUpdS]⟩)
  | q17s => exact .inr (.inr (.inl ⟨rfl, by simp [complete, h, hc, completeFxQ17S]⟩))
  | q21s => exact .inr (.inr (.inr (.inl ⟨rfl, by simp [complete, h, hc, completeFxQ21S]⟩)))
  | q15u => exact .inr (.inr (.inr (.inr ⟨rfl, by simp [complete, h, hc, completeFxQ15U]⟩)))

/-- A completion leaves nothing pending. -/
@[simp] theorem complete_pend : (complete s).pend = none := by
  cases h : s.pend with
  | none => rw [complete_idle s h, h]
  | some p => rcases complete_pending s h with ⟨a, _, e⟩ | ⟨a, _, e⟩ | ⟨_, e⟩ | ⟨_, e⟩ | ⟨_, e⟩ <;> rw [e, finish_pend]

/-- A completion does not touch `D`, `XI`, the sticky flags or the model's own fields (R101). -/
theorem complete_frame :
    (complete s).d = s.d ∧ (complete s).xi = s.xi ∧ (complete s).status.ill = s.status.ill ∧
      (complete s).status.berr = s.status.berr ∧ (complete s).port = s.port ∧ (complete s).draws = s.draws ∧ (complete s).reads = s.reads ∧
      (complete s).inputs = s.inputs := by
  cases h : s.pend with
  | none => simp [complete_idle s h]
  | some p => rcases complete_pending s h with ⟨a, _, e⟩ | ⟨a, _, e⟩ | ⟨_, e⟩ | ⟨_, e⟩ | ⟨_, e⟩ <;> simp [e]

@[simp] theorem complete_inputs : (complete s).inputs = s.inputs := (complete_frame s).2.2.2.2.2.2.2

/-! ### exec -/

theorem exec_nop : exec .nop s = issue (fun t => t) s := rfl
theorem exec_crcInit : exec .crcInit s = issue (fun t => t.setR crcInitValue) s := rfl
theorem exec_crcUpdT (nb : Nat) : exec (.crcUpdT nb) s = issue (acceptMulti (.updT (argOfCount nb))) s := rfl
theorem exec_crcUpdS (nb : Nat) : exec (.crcUpdS nb) s = issue (acceptMulti (.updS (argOfCount nb))) s := rfl
theorem exec_fxQ17S : exec .fxQ17S s = issue (acceptMulti .q17s) s := rfl
theorem exec_fxQ21S : exec .fxQ21S s = issue (acceptMulti .q21s) s := rfl
theorem exec_fxQ15U : exec .fxQ15U s = issue (acceptMulti .q15u) s := rfl
theorem exec_errClr : exec .errClr s = issue recover s := rfl

/-- Every command is a write that `issue` serves, of one of four effects. -/
theorem exec_issue (i : Instr) :
    ∃ f, exec i s = issue f s ∧
      ((i = .nop ∧ f = fun t => t) ∨ (i = .crcInit ∧ f = fun t => t.setR crcInitValue) ∨
       (i = .errClr ∧ f = recover) ∨ (i.isMulti = true ∧ ∃ c, f = acceptMulti c)) := by
  cases i with
  | nop => exact ⟨_, exec_nop s, .inl ⟨rfl, rfl⟩⟩
  | crcInit => exact ⟨_, exec_crcInit s, .inr (.inl ⟨rfl, rfl⟩)⟩
  | errClr => exact ⟨_, exec_errClr s, .inr (.inr (.inl ⟨rfl, rfl⟩))⟩
  | crcUpdT nb => exact ⟨_, exec_crcUpdT s nb, .inr (.inr (.inr ⟨rfl, _, rfl⟩))⟩
  | crcUpdS nb => exact ⟨_, exec_crcUpdS s nb, .inr (.inr (.inr ⟨rfl, _, rfl⟩))⟩
  | fxQ17S => exact ⟨_, exec_fxQ17S s, .inr (.inr (.inr ⟨rfl, _, rfl⟩))⟩
  | fxQ21S => exact ⟨_, exec_fxQ21S s, .inr (.inr (.inr ⟨rfl, _, rfl⟩))⟩
  | fxQ15U => exact ⟨_, exec_fxQ15U s, .inr (.inr (.inr ⟨rfl, _, rfl⟩))⟩

/-- Everything a command's write can do, over all commands. -/
theorem exec_cases {i : Instr} {t : State} (h : exec i s = .next t) :
    (∃ p, s.pend = some p ∧ t = s.setStatus s.status.setBerr) ∨
    (s.pend = none ∧
      ((i = .nop ∧ t = s) ∨ (i = .crcInit ∧ t = s.setR crcInitValue) ∨
       (i = .errClr ∧ t = s.setStatus s.status.clearErrors) ∨
       (i.isMulti = true ∧ ∃ c, t = acceptMulti c s))) := by
  obtain ⟨f, hf, hk⟩ := exec_issue s i
  rw [hf] at h
  rcases issue_cases s h with ⟨hp, rfl⟩ | busy
  · refine .inr ⟨hp, ?_⟩
    rcases hk with ⟨hi, rfl⟩ | ⟨hi, rfl⟩ | ⟨hi, rfl⟩ | ⟨hi, c, rfl⟩
    · exact .inl ⟨hi, rfl⟩
    · exact .inr (.inl ⟨hi, rfl⟩)
    · exact .inr (.inr (.inl ⟨hi, rfl⟩))
    · exact .inr (.inr (.inr ⟨hi, c, rfl⟩))
  · exact .inl busy

end Sys2Proof.Machine
end

