-- ==== Sys2Proof/Laws/Step.lean ====
section
/-! SUPPORT. What an access, an event and a step can do, once: the inversion lemmas that invariants and frames rest on. -/

namespace Sys2Proof.Machine

variable (e : Engines) (s : State)

/-! ### Reads -/

/-- The state after a read, spelled as named updates. -/
theorem recordRead_eq (off : Offset) :
    recordRead e off s = (if takesDraw (winReg off) s then
        (s.pushRead { off := off, value := readValue e (winReg off) s }).countDraw
      else s.pushRead { off := off, value := readValue e (winReg off) s }) := rfl

/-- A read changes the model's own record only (20_memory.md R31, R36). -/
theorem recordRead_frame (off : Offset) :
    (recordRead e off s).r = s.r ∧ (recordRead e off s).d = s.d ∧ (recordRead e off s).xi = s.xi ∧
      (recordRead e off s).xo = s.xo ∧ (recordRead e off s).status = s.status ∧
      (recordRead e off s).pend = s.pend ∧ (recordRead e off s).port = s.port ∧ (recordRead e off s).inputs = s.inputs := by
  rw [recordRead_eq]
  split <;> simp

theorem memRead_next {off : Offset} {n : Nat} {t : State} (h : memRead e off n s = .next t) :
    accessOk off n = true ∧ t = recordRead e off s := by
  unfold memRead at h
  split at h
  · next ok => cases h; exact ⟨ok, rfl⟩
  · cases h

/-! ### Writes -/

/-- Everything an accepted or illegal command word can do while nothing is pending. -/
theorem accept_cases (w : Word) :
    (∃ i, decodeWord e w = .ok i ∧ accept e w s = exec i s) ∨
    (∃ x, decodeWord e w = .error x ∧ accept e w s = .next (s.setStatus s.status.setIll)) := by
  unfold accept
  cases h : decodeWord e w with
  | ok i => exact .inl ⟨i, rfl, rfl⟩
  | error x => exact .inr ⟨x, rfl, rfl⟩

/-- Everything a write can do. -/
theorem memWrite_next {off : Offset} {n v : Nat} {t : State} (h : memWrite e off n v s = .next t) :
    accessOk off n = true ∧
      ((∃ p, s.pend = some p ∧ (winReg off).dropsWhileBusy = true ∧ t = s.setStatus s.status.setBerr) ∨
       ((winReg off).dropsWhileBusy = false ∧ t = s) ∨
       (s.pend = none ∧ winReg off = .cmd ∧ accept e (BitVec.ofNat 32 v) s = .next t) ∨
       (s.pend = none ∧ winReg off = .crcState ∧ t = s.setR (BitVec.ofNat 32 v)) ∨
       (s.pend = none ∧ winReg off = .data ∧ t = s.setD (BitVec.ofNat 32 v)) ∨
       (s.pend = none ∧ winReg off = .fxRaw ∧ t = s.setXi (BitVec.ofNat 32 v))) := by
  unfold memWrite at h
  split at h
  · next ok =>
    refine ⟨ok, ?_⟩
    split at h
    · next busy =>
      rw [Bool.and_eq_true] at busy
      obtain ⟨p, hp⟩ := Option.isSome_iff_exists.mp busy.2
      cases h
      exact .inl ⟨p, hp, busy.1, rfl⟩
    · next idle =>
      have free : (winReg off).dropsWhileBusy = true → s.pend = none := by
        intro hd
        cases hp : s.pend with
        | none => rfl
        | some p => simp [hd, hp] at idle
      cases hr : winReg off with
      | cmd => rw [hr] at h free; exact .inr (.inr (.inl ⟨free rfl, rfl, h⟩))
      | crcState => rw [hr] at h free; cases h; exact .inr (.inr (.inr (.inl ⟨free rfl, rfl, rfl⟩)))
      | data => rw [hr] at h free; cases h; exact .inr (.inr (.inr (.inr (.inl ⟨free rfl, rfl, rfl⟩))))
      | fxRaw => rw [hr] at h free; cases h; exact .inr (.inr (.inr (.inr (.inr ⟨free rfl, rfl, rfl⟩))))
      | status => rw [hr] at h; cases h; exact .inr (.inl ⟨rfl, rfl⟩)
      | crcResult => rw [hr] at h; cases h; exact .inr (.inl ⟨rfl, rfl⟩)
      | fxOut => rw [hr] at h; cases h; exact .inr (.inl ⟨rfl, rfl⟩)
      | config => rw [hr] at h; cases h; exact .inr (.inl ⟨rfl, rfl⟩)
      | reserved => rw [hr] at h; cases h; exact .inr (.inl ⟨rfl, rfl⟩)
      | table i => rw [hr] at h; cases h; exact .inr (.inl ⟨rfl, rfl⟩)
  · cases h

/-! ### One event, one step -/

/-- The four ways an event is served to a next state. -/
theorem serve_next {ev : Event} {t : State} (h : serve e ev s = .next t) :
    (∃ off n, ev = .read off n ∧ accessOk off n = true ∧ t = recordRead e off s) ∨
    (∃ off n v, ev = .write off n v ∧ memWrite e off n v s = .next t) ∨
    (ev = .complete ∧ t = complete s) ∨
    (ev = .reset ∧ t = applyReset s) := by
  cases ev with
  | read off n =>
    obtain ⟨ok, ht⟩ := memRead_next e s h
    exact .inl ⟨off, n, rfl, ok, ht⟩
  | write off n v => exact .inr (.inl ⟨off, n, v, rfl, h⟩)
  | complete => cases h; exact .inr (.inr (.inl ⟨rfl, rfl⟩))
  | reset => cases h; exact .inr (.inr (.inr ⟨rfl, rfl⟩))

theorem step_noInput (h : s.inputs = []) : step s = .next (complete s) := by
  simp [step, h, idle]

theorem step_input {ev : Event} {rest : List Event} (h : s.inputs = ev :: rest) :
    step s = serve Config.engines ev (s.setInputs rest) := by
  simp [step, h]

/-- The two kinds of step: the unit's own with no event left, or the next event served. -/
theorem step_next {t : State} (h : step s = .next t) :
    (s.inputs = [] ∧ t = complete s) ∨
    (∃ ev rest, s.inputs = ev :: rest ∧ serve Config.engines ev (s.setInputs rest) = .next t) := by
  cases hi : s.inputs with
  | nil => rw [step_noInput s hi] at h; cases h; exact .inl ⟨rfl, rfl⟩
  | cons ev rest => rw [step_input s hi] at h; exact .inr ⟨ev, rest, rfl, h⟩

/-! ### The port -/

theorem exec_port {i : Instr} {t : State} (h : exec i s = .next t) : t.port = s.port := by
  rcases exec_cases s h with ⟨_, _, rfl⟩ | ⟨_, ⟨_, rfl⟩ | ⟨_, rfl⟩ | ⟨_, rfl⟩ | ⟨_, c, rfl⟩⟩ <;> rfl

theorem memWrite_port {off : Offset} {n v : Nat} {t : State} (h : memWrite e off n v s = .next t) :
    t.port = s.port := by
  rcases memWrite_next e s h with ⟨_, ⟨_, _, _, rfl⟩ | ⟨_, rfl⟩ | ⟨_, _, ha⟩ | ⟨_, _, rfl⟩ | ⟨_, _, rfl⟩ | ⟨_, _, rfl⟩⟩
  · rfl
  · rfl
  · rcases accept_cases e s (BitVec.ofNat 32 v) with ⟨i, _, hi⟩ | ⟨_, _, hx⟩
    · rw [hi] at ha; exact exec_port s ha
    · rw [hx] at ha; cases ha; rfl
  · rfl
  · rfl
  · rfl

/-- No event moves a block to another port. -/
theorem serve_port {ev : Event} {t : State} (h : serve e ev s = .next t) : t.port = s.port := by
  rcases serve_next e s h with ⟨off, _, _, _, rfl⟩ | ⟨_, _, _, _, hw⟩ | ⟨_, rfl⟩ | ⟨_, rfl⟩
  · exact (recordRead_frame e s off).2.2.2.2.2.2.1
  · exact memWrite_port e s hw
  · exact (complete_frame s).2.2.2.2.1
  · rfl

theorem step_port {t : State} (h : step s = .next t) : t.port = s.port := by
  rcases step_next s h with ⟨_, rfl⟩ | ⟨ev, rest, _, hs⟩
  · exact (complete_frame s).2.2.2.2.1
  · rw [serve_port Config.engines _ hs, State.setInputs_port]

/-! ### Runs of the machine as the host reads it -/

theorem run_zero : Host.Core.run core 0 s = .next s := rfl

variable {s}

theorem run_succ_next {k : Nat} {t : State} (h : step s = .next t) :
    Host.Core.run core (k + 1) s = Host.Core.run core k t := by
  have hc : core.step s = .next t := h
  simp only [Host.Core.run, hc]

theorem run_succ_fault {k : Nat} {x : Fault} (h : step s = .fault x) :
    Host.Core.run core (k + 1) s = .fault x := by
  have hc : core.step s = .fault x := h
  simp only [Host.Core.run, hc]

theorem run_succ_refused {k : Nat} {x : Refusal} (h : step s = .refused x) :
    Host.Core.run core (k + 1) s = .refused x := by
  have hc : core.step s = .refused x := h
  simp only [Host.Core.run, hc]

end Sys2Proof.Machine
end

