-- ==== Sys2Proof/Laws/Bus.lean ====
section
/-! SUPPORT. The bus port forwards: what an access answers, by offset and by whether a command is pending, and that serving an
event neither reads nor writes the list of events still to come. -/

namespace Sys2Proof.Machine

variable (e : Engines) (s : State)

/-! ### The register map at the named offsets (20_memory.md R29) -/

@[simp] theorem winReg_cmd : winReg 0x000#11 = .cmd := by decide
@[simp] theorem winReg_status : winReg 0x004#11 = .status := by decide
@[simp] theorem winReg_crcState : winReg 0x008#11 = .crcState := by decide
@[simp] theorem winReg_crcResult : winReg 0x00C#11 = .crcResult := by decide
@[simp] theorem winReg_data : winReg 0x010#11 = .data := by decide
@[simp] theorem winReg_fxRaw : winReg 0x014#11 = .fxRaw := by decide
@[simp] theorem winReg_fxOut : winReg 0x018#11 = .fxOut := by decide
@[simp] theorem winReg_config : winReg 0x01C#11 = .config := by decide

/-- R35, as a proposition. -/
theorem accessOk_iff (off : Offset) (n : Nat) : accessOk off n = true ↔ n = 4 ∧ off.extractLsb' 0 2 = 0#2 := by
  simp [accessOk, aligned]

/-! ### Accesses -/

theorem memRead_fault {off : Offset} {n : Nat} (h : accessOk off n = false) :
    memRead e off n s = .fault (.busFault off) := by simp [memRead, h]

theorem memRead_ok {off : Offset} {n : Nat} (h : accessOk off n = true) :
    memRead e off n s = .next (recordRead e off s) := by simp [memRead, h]

theorem memWrite_fault {off : Offset} {n v : Nat} (h : accessOk off n = false) :
    memWrite e off n v s = .fault (.busFault off) := by simp [memWrite, h]

theorem memWrite_busy {off : Offset} {n v : Nat} {p : Pend} (h : accessOk off n = true)
    (hd : (winReg off).dropsWhileBusy = true) (hp : s.pend = some p) :
    memWrite e off n v s = .next (s.setStatus s.status.setBerr) := by simp [memWrite, h, hd, hp]

theorem memWrite_idle {off : Offset} {n v : Nat} (h : accessOk off n = true) (hp : s.pend = none) :
    memWrite e off n v s = writeReg e (winReg off) (BitVec.ofNat 32 v) s := by simp [memWrite, h, hp]

theorem memWrite_ignored {off : Offset} {n v : Nat} (h : accessOk off n = true)
    (hd : (winReg off).dropsWhileBusy = false) : memWrite e off n v s = .next s := by
  cases hr : winReg off <;> simp_all [memWrite, writeReg, WinReg.dropsWhileBusy]

theorem accept_ok {w : Word} {i : Instr} (h : decodeWord e w = .ok i) : accept e w s = exec i s := by
  simp [accept, h]

theorem accept_error {w : Word} {x : DecodeError} (h : decodeWord e w = .error x) :
    accept e w s = .next (s.setStatus s.status.setIll) := by simp [accept, h]

/-! ### The event list stands apart -/

/-- An outcome with the event list of its next state replaced. -/
def withInputs (l : List Event) (o : Host.Outcome State Fault Refusal) : Host.Outcome State Fault Refusal :=
  match o with
  | .next t => .next (t.setInputs l)
  | .fault x => .fault x
  | .refused x => .refused x

theorem complete_setInputs (l : List Event) : complete (s.setInputs l) = (complete s).setInputs l := by
  rcases s with ⟨r, d, xi, xo, st, _ | ⟨c, r0, d0, x0⟩, po, dr, re, inp⟩
  · rfl
  · cases c <;> rfl

theorem exec_setInputs (i : Instr) (l : List Event) : exec i (s.setInputs l) = withInputs l (exec i s) := by
  rcases s with ⟨r, d, xi, xo, st, _ | p, po, dr, re, inp⟩ <;> cases i <;> rfl

theorem accept_setInputs (w : Word) (l : List Event) :
    accept e w (s.setInputs l) = withInputs l (accept e w s) := by
  unfold accept
  cases decodeWord e w with
  | ok i => exact exec_setInputs s i l
  | error x => rfl

theorem writeReg_setInputs (reg : WinReg) (v : Word) (l : List Event) :
    writeReg e reg v (s.setInputs l) = withInputs l (writeReg e reg v s) := by
  cases reg with
  | cmd => exact accept_setInputs e s v l
  | status => rfl
  | crcState => rfl
  | crcResult => rfl
  | data => rfl
  | fxRaw => rfl
  | fxOut => rfl
  | config => rfl
  | reserved => rfl
  | table i => rfl

theorem recordRead_setInputs (off : Offset) (l : List Event) :
    recordRead e off (s.setInputs l) = (recordRead e off s).setInputs l := by
  have same : takesDraw (winReg off) (s.setInputs l) = takesDraw (winReg off) s := rfl
  have value : readValue e (winReg off) (s.setInputs l) = readValue e (winReg off) s := by
    unfold readValue
    rw [same]
    cases winReg off <;> rfl
  rw [recordRead_eq, recordRead_eq, same, value]
  split <;> rfl

/-- Serving an event commutes with replacing the list of events still to come. -/
theorem serve_setInputs (ev : Event) (l : List Event) :
    serve e ev (s.setInputs l) = withInputs l (serve e ev s) := by
  cases ev with
  | read off n =>
    show memRead e off n _ = withInputs l (memRead e off n s)
    cases ok : accessOk off n with
    | true => rw [memRead_ok e _ ok, memRead_ok e s ok, recordRead_setInputs]; rfl
    | false => rw [memRead_fault e _ ok, memRead_fault e s ok]; rfl
  | write off n v =>
    show memWrite e off n v _ = withInputs l (memWrite e off n v s)
    cases ok : accessOk off n with
    | false => rw [memWrite_fault e _ ok, memWrite_fault e s ok]; rfl
    | true =>
      cases hd : (winReg off).dropsWhileBusy with
      | false => rw [memWrite_ignored e _ ok hd, memWrite_ignored e s ok hd]; rfl
      | true =>
        cases hp : s.pend with
        | none => rw [memWrite_idle e (s.setInputs l) ok hp, memWrite_idle e s ok hp, writeReg_setInputs]
        | some p => rw [memWrite_busy e (s.setInputs l) ok hd hp, memWrite_busy e s ok hd hp]; rfl
  | complete => exact congrArg Host.Outcome.next (complete_setInputs s l)
  | reset => rfl

end Sys2Proof.Machine
end

