-- ==== Sys2Proof/Laws/Decode.lean ====
section
/-! SUPPORT. The fields of a command word, and what the decoder can answer, once. -/

namespace Sys2Proof

/-! ### Fields (30_encoding.md R43) -/

/-- A word is its three fields. -/
theorem word_of_fields (w : Word) : w = rsvOf w ++ argOf w ++ opcOf w := by
  apply BitVec.eq_of_getLsbD_eq
  intro i hi
  unfold rsvOf argOf opcOf
  simp only [BitVec.getLsbD_append, BitVec.getLsbD_extractLsb']
  split
  · simp [*]
  · split
    · rw [decide_eq_true (by omega), Bool.true_and, show 8 + (i - 8) = i by omega]
    · rw [decide_eq_true (by omega), Bool.true_and, show 10 + (i - 8 - 2) = i by omega]

theorem opcOf_append (rsv : BitVec 22) (arg : BitVec 2) (opc : BitVec 8) : opcOf (rsv ++ arg ++ opc) = opc := by
  apply BitVec.eq_of_getLsbD_eq
  intro i hi
  unfold opcOf
  simp only [BitVec.getLsbD_append, BitVec.getLsbD_extractLsb', Nat.zero_add]
  rw [if_pos hi, decide_eq_true hi, Bool.true_and]

theorem argOf_append (rsv : BitVec 22) (arg : BitVec 2) (opc : BitVec 8) : argOf (rsv ++ arg ++ opc) = arg := by
  apply BitVec.eq_of_getLsbD_eq
  intro i hi
  unfold argOf
  simp only [BitVec.getLsbD_append, BitVec.getLsbD_extractLsb']
  rw [if_neg (by omega), if_pos (by omega), decide_eq_true hi, Bool.true_and, show 8 + i - 8 = i by omega]

theorem rsvOf_append (rsv : BitVec 22) (arg : BitVec 2) (opc : BitVec 8) : rsvOf (rsv ++ arg ++ opc) = rsv := by
  apply BitVec.eq_of_getLsbD_eq
  intro i hi
  unfold rsvOf
  simp only [BitVec.getLsbD_append, BitVec.getLsbD_extractLsb']
  rw [if_neg (by omega), if_neg (by omega), decide_eq_true hi, Bool.true_and, show 10 + i - 8 - 2 = i by omega]

@[simp] theorem opcOf_commandWord (opc : BitVec 8) (arg : BitVec 2) : opcOf (commandWord opc arg) = opc :=
  opcOf_append _ _ _
@[simp] theorem argOf_commandWord (opc : BitVec 8) (arg : BitVec 2) : argOf (commandWord opc arg) = arg :=
  argOf_append _ _ _
@[simp] theorem rsvOf_commandWord (opc : BitVec 8) (arg : BitVec 2) : rsvOf (commandWord opc arg) = 0#22 :=
  rsvOf_append _ _ _

/-- A word with `RSV` = 0 is the command word of its other two fields. -/
theorem commandWord_of_fields {w : Word} (h : rsvOf w = 0#22) : w = commandWord (opcOf w) (argOf w) := by
  have split := word_of_fields w
  rw [h] at split
  exact split

/-- The four values of `ARG`. -/
theorem arg_cases (a : BitVec 2) : a = 0#2 ∨ a = 1#2 ∨ a = 2#2 ∨ a = 3#2 := by
  revert a
  decide

/-- A well-formed count is the count of its `ARG` (R44). -/
theorem countOfArg_argOfCount {nb : Nat} (h : byteCountOk nb = true) : countOfArg (argOfCount nb) = nb := by
  simp only [byteCountOk, Bool.and_eq_true, decide_eq_true_eq] at h
  simp only [countOfArg, argOfCount, BitVec.toNat_ofNat]
  omega

@[simp] theorem argOfCount_countOfArg (arg : BitVec 2) : argOfCount (countOfArg arg) = arg := by
  simp [countOfArg, argOfCount]

theorem byteCountOk_countOfArg (arg : BitVec 2) : byteCountOk (countOfArg arg) = true := by
  revert arg
  decide

/-! ### The decoder -/

theorem withoutOperand_ok {opc : BitVec 8} {arg : BitVec 2} {i j : Instr} (h : withoutOperand opc arg i = .ok j) :
    arg = 0#2 ∧ j = i := by
  unfold withoutOperand at h
  split at h
  · next ha => exact ⟨ha, (Except.ok.inj h).symm⟩
  · cases h

theorem decodeFormat_ok {arg : BitVec 2} {i : Instr} (h : decodeFormat arg = .ok i) :
    (arg = 0#2 ∧ i = .fxQ17S) ∨ (arg = 1#2 ∧ i = .fxQ21S) ∨ (arg = 2#2 ∧ i = .fxQ15U) := by
  unfold decodeFormat at h
  split at h
  · next h0 => exact .inl ⟨h0, (Except.ok.inj h).symm⟩
  split at h
  · next h1 => exact .inr (.inl ⟨h1, (Except.ok.inj h).symm⟩)
  split at h
  · next h2 => exact .inr (.inr ⟨h2, (Except.ok.inj h).symm⟩)
  · cases h

/-- Everything the decoder can take: the word is the command word of one row of R47. -/
theorem decodeWord_ok {e : Engines} {w : Word} {i : Instr} (h : decodeWord e w = .ok i) :
    (w = commandWord 0x00#8 0#2 ∧ i = .nop) ∨
    (w = commandWord 0x01#8 0#2 ∧ i = .crcInit) ∨
    (∃ a, e.table = true ∧ w = commandWord 0x02#8 a ∧ i = .crcUpdT (countOfArg a)) ∨
    (∃ a, e.serial = true ∧ w = commandWord 0x03#8 a ∧ i = .crcUpdS (countOfArg a)) ∨
    (w = commandWord 0x04#8 0#2 ∧ i = .fxQ17S) ∨
    (w = commandWord 0x04#8 1#2 ∧ i = .fxQ21S) ∨
    (w = commandWord 0x04#8 2#2 ∧ i = .fxQ15U) ∨
    (w = commandWord 0x05#8 0#2 ∧ i = .errClr) := by
  unfold decodeWord at h
  dsimp only at h
  split at h
  · cases h
  next hr =>
  have fields := commandWord_of_fields (Classical.not_not.mp hr)
  split at h
  · next ho =>
    obtain ⟨ha, hi⟩ := withoutOperand_ok h
    rw [ho, ha] at fields
    exact .inl ⟨fields, hi⟩
  split at h
  · next ho =>
    obtain ⟨ha, hi⟩ := withoutOperand_ok h
    rw [ho, ha] at fields
    exact .inr (.inl ⟨fields, hi⟩)
  split at h
  · next ho =>
    rw [ho] at fields
    split at h
    · next ht => exact .inr (.inr (.inl ⟨_, ht, fields, (Except.ok.inj h).symm⟩))
    · cases h
  split at h
  · next ho =>
    rw [ho] at fields
    split at h
    · next hs => exact .inr (.inr (.inr (.inl ⟨_, hs, fields, (Except.ok.inj h).symm⟩)))
    · cases h
  split at h
  · next ho =>
    rw [ho] at fields
    rcases decodeFormat_ok h with ⟨ha, hi⟩ | ⟨ha, hi⟩ | ⟨ha, hi⟩ <;> rw [ha] at fields
    · exact .inr (.inr (.inr (.inr (.inl ⟨fields, hi⟩))))
    · exact .inr (.inr (.inr (.inr (.inr (.inl ⟨fields, hi⟩)))))
    · exact .inr (.inr (.inr (.inr (.inr (.inr (.inl ⟨fields, hi⟩))))))
  split at h
  · next ho =>
    obtain ⟨ha, hi⟩ := withoutOperand_ok h
    rw [ho, ha] at fields
    exact .inr (.inr (.inr (.inr (.inr (.inr (.inr ⟨fields, hi⟩))))))
  · cases h

end Sys2Proof
end

