-- ==== Sys2Proof/Laws/Host.lean ====
section
/-! SUPPORT. What the host's load and store can do, and how the assembler reads a line. -/

namespace Sys2Proof.Machine

variable (h : HostRun)

/-! ### Stores and loads -/

@[simp] theorem hostNoteStore_plain {off : Offset} {w : Word} (hm : issuesMulti off w = false) :
    hostNoteStore off w h = h := by simp [hostNoteStore, hm]

@[simp] theorem hostNoteStore_multi {off : Offset} {w : Word} (hm : issuesMulti off w = true) :
    hostNoteStore off w h = { h with issued := true, seen := none } := by simp [hostNoteStore, hm]

/-- Everything a store can do: the block takes the write, the host notes it and moves on. -/
theorem hostStore_next {off : Offset} {v : Word} {h' : HostRun} (hs : hostStore off v h = .next h') :
    ∃ t, memWrite Config.engines off 4 v.toNat h.dev = .next t ∧
      h' = hostGoto (hostNoteStore off v { h with dev := t }) (h.pos + 1) := by
  unfold hostStore at hs
  split at hs
  · next t ht => cases hs; exact ⟨t, ht, rfl⟩
  · cases hs
  · cases hs

/-- Everything a load can do. -/
theorem hostLoad_next {k : Fin 8} {off : Offset} {h' : HostRun} (hs : hostLoad k off h = .next h') :
    accessOk off 4 = true ∧
      h' = hostSetReg (hostNoteLoad off (readValue Config.engines (winReg off) h.dev)
        { h with dev := recordRead Config.engines off h.dev }) k (readValue Config.engines (winReg off) h.dev) := by
  unfold hostLoad at hs
  split at hs
  · next t ht =>
    cases hs
    obtain ⟨ok, rfl⟩ := memRead_next Config.engines h.dev ht
    exact ⟨ok, rfl⟩
  · cases hs
  · cases hs

/-- A read moves none of the values that an end state takes from the block. -/
@[simp] theorem regView_recordRead (e : Engines) (off : Offset) (s : State) : regView (recordRead e off s) = regView s := by
  obtain ⟨hr, hd, hxi, hxo, hst, -⟩ := recordRead_frame e s off
  simp [regView, hr, hd, hxi, hxo, hst]

theorem endState_seen {x : RegView} (hx : h.seen = some x) : endState h = { regs := x, reads := h.reads } := by
  simp [endState, hx]

/-! ### Lines -/

/-- A text without spaces is one part of its line. -/
theorem lineParts_word (x : List Char) (hx : ' ' ∉ x) (part : List Char) :
    lineParts part x = if part.isEmpty ∧ x.isEmpty then [] else [part.reverse ++ x] := by
  induction x generalizing part with
  | nil => cases part <;> simp [lineParts]
  | cons c cs ih =>
    obtain ⟨hc, hcs⟩ : ' ' ≠ c ∧ ' ' ∉ cs := by simpa using hx
    simp [lineParts, Ne.symm hc, ih hcs]

/-- `Char.toUpper` in numbers. -/
theorem toNat_toUpper (c : Char) :
    c.toUpper.toNat = if 97 ≤ c.toNat ∧ c.toNat ≤ 122 then c.toNat - 32 else c.toNat := by
  have small : c.toNat < 4294967296 := c.val.toNat_lt
  have lower : ('a'.val ≤ c.val ∧ c.val ≤ 'z'.val) ↔ (97 ≤ c.toNat ∧ c.toNat ≤ 122) := Iff.rfl
  unfold Char.toUpper
  by_cases hc : 'a'.val ≤ c.val ∧ c.val ≤ 'z'.val
  · have range := lower.mp hc
    simp only [hc, and_self, ↓reduceDIte, range]
    show (c.val + ('A'.val - 'a'.val)).toNat = c.toNat - 32
    rw [UInt32.toNat_add]
    show (c.toNat + 4294967264) % 4294967296 = c.toNat - 32
    omega
  · simp only [hc, ↓reduceDIte]
    rw [if_neg (fun r => hc (lower.mpr r))]

/-- `Char.toLower` in numbers. -/
theorem toNat_toLower (c : Char) :
    c.toLower.toNat = if 65 ≤ c.toNat ∧ c.toNat ≤ 90 then c.toNat + 32 else c.toNat := by
  have small : c.toNat < 4294967296 := c.val.toNat_lt
  have upper : (c.val ≥ 'A'.val ∧ c.val ≤ 'Z'.val) ↔ (65 ≤ c.toNat ∧ c.toNat ≤ 90) := Iff.rfl
  unfold Char.toLower
  by_cases hc : c.val ≥ 'A'.val ∧ c.val ≤ 'Z'.val
  · have range := upper.mp hc
    simp only [hc, and_self, ↓reduceDIte, range]
    show (c.val + ('a'.val - 'A'.val)).toNat = c.toNat + 32
    rw [UInt32.toNat_add]
    show (c.toNat + 32) % 4294967296 = c.toNat + 32
    omega
  · simp only [hc, ↓reduceDIte]
    rw [if_neg (fun r => hc (upper.mpr r))]

theorem toUpper_toUpper (c : Char) : c.toUpper.toUpper = c.toUpper := by
  apply Char.toNat_inj.mp
  simp only [toNat_toUpper]
  split_ifs <;> omega

theorem toUpper_toLower (c : Char) : c.toLower.toUpper = c.toUpper := by
  apply Char.toNat_inj.mp
  simp only [toNat_toUpper, toNat_toLower]
  split_ifs <;> omega

/-- A character that is no letter is the upper case of itself only. -/
theorem toUpper_eq {c d : Char} (hd : d.toNat < 65) : c.toUpper = d ↔ c = d := by
  rw [← Char.toNat_inj, ← Char.toNat_inj, toNat_toUpper]
  split_ifs <;> omega

end Sys2Proof.Machine
end

