-- ==== Sys2Proof/Laws/PerInstr.lean ====
section
/-! SUPPORT. Per-instruction families (LAWS.json): facts about a command as syntax, one lemma for each constructor. -/

namespace Sys2Proof.Laws.RowMatch

/-- The word of a well-formed command spells a row of the opcode table with the command's mnemonic and class
(30_encoding.md R47). -/
def Statement (i : Instr) : Prop :=
  ∀ e : Engines, i.wellFormed e = true →
    ∃ row ∈ opcodeTable, row.mnemonic = i.mnemonic ∧ row.multi = i.isMulti ∧ row.spells (encode i) = true

/-- The two rows with an operand field: the four counts. -/
theorem counts {nb : Nat} {e : Bool} (h : (e && byteCountOk nb) = true) : nb = 1 ∨ nb = 2 ∨ nb = 3 ∨ nb = 4 := by
  simp only [byteCountOk, Bool.and_eq_true, decide_eq_true_eq] at h
  omega

theorem nop : Statement .nop := fun _ _ => ⟨opcodeTable[0], by decide, rfl, rfl, by decide⟩
theorem crcInit : Statement .crcInit := fun _ _ => ⟨opcodeTable[1], by decide, rfl, rfl, by decide⟩
theorem crcUpdT (nb : Nat) : Statement (.crcUpdT nb) := by
  intro e h
  refine ⟨opcodeTable[2], by decide, rfl, rfl, ?_⟩
  rcases counts h with rfl | rfl | rfl | rfl <;> decide
theorem crcUpdS (nb : Nat) : Statement (.crcUpdS nb) := by
  intro e h
  refine ⟨opcodeTable[3], by decide, rfl, rfl, ?_⟩
  rcases counts h with rfl | rfl | rfl | rfl <;> decide
theorem fxQ17S : Statement .fxQ17S := fun _ _ => ⟨opcodeTable[4], by decide, rfl, rfl, by decide⟩
theorem fxQ21S : Statement .fxQ21S := fun _ _ => ⟨opcodeTable[5], by decide, rfl, rfl, by decide⟩
theorem fxQ15U : Statement .fxQ15U := fun _ _ => ⟨opcodeTable[6], by decide, rfl, rfl, by decide⟩
theorem errClr : Statement .errClr := fun _ _ => ⟨opcodeTable[7], by decide, rfl, rfl, by decide⟩

end Sys2Proof.Laws.RowMatch
end

