-- ==== Sys2Proof/Tests/Slice0.lean ====
section
/-! SUPPORT. Small tests, each on fixed values taken from the spec (the source stands in the comment), and for each statement
with hypotheses a named witness that meets them all. -/

namespace Sys2Proof.Tests

open Sys2Proof.Machine

/-! ## WellFormed refuses each ill-formed term -/

theorem test_wellFormed_count_zero : Instr.wellFormed Config.engines (.crcUpdT 0) = false := by decide
theorem test_wellFormed_count_five : Instr.wellFormed Config.engines (.crcUpdT 5) = false := by decide
theorem test_wellFormed_serial_count_zero : Instr.wellFormed Config.engines (.crcUpdS 0) = false := by decide
theorem test_wellFormed_serial_count_five : Instr.wellFormed Config.engines (.crcUpdS 5) = false := by decide
theorem test_wellFormed_no_table : Instr.wellFormed { table := false, serial := true } (.crcUpdT 1) = false := by decide
theorem test_wellFormed_no_serial : Instr.wellFormed { table := true, serial := false } (.crcUpdS 1) = false := by decide
theorem test_wellFormed_count_four : Instr.wellFormed Config.engines (.crcUpdT 4) = true := by decide
theorem test_no_engine_not_allowed : Engines.allowed { table := false, serial := false } = false := by decide

/-! ## Decoding: the words of 30_encoding.md R47, bit by bit (RSV, ARG, OPC) -/

theorem test_decode_nop : decodeWord Config.engines 0b0000000000000000000000_00_00000000#32 = .ok .nop := by rfl
theorem test_decode_crcInit : decodeWord Config.engines 0b0000000000000000000000_00_00000001#32 = .ok .crcInit := by rfl
theorem test_decode_crcUpdT : decodeWord Config.engines 0b0000000000000000000000_01_00000010#32 = .ok (.crcUpdT 2) := by rfl
theorem test_decode_crcUpdS : decodeWord Config.engines 0b0000000000000000000000_10_00000011#32 = .ok (.crcUpdS 3) := by rfl
theorem test_decode_fxQ17S : decodeWord Config.engines 0b0000000000000000000000_00_00000100#32 = .ok .fxQ17S := by rfl
theorem test_decode_fxQ21S : decodeWord Config.engines 0b0000000000000000000000_01_00000100#32 = .ok .fxQ21S := by rfl
theorem test_decode_fxQ15U : decodeWord Config.engines 0b0000000000000000000000_10_00000100#32 = .ok .fxQ15U := by rfl
theorem test_decode_errClr : decodeWord Config.engines 0b0000000000000000000000_00_00000101#32 = .ok .errClr := by rfl

/-- 30_encoding.md R50: `CRC.UPD.T 4` is 0x00000302, whose bytes are 02 03 00 00 (20_memory.md R33). -/
theorem test_decode_bytes :
    decode Config.engines [0x02#8, 0x03#8, 0x00#8, 0x00#8, 0xAA#8] = .ok (.crcUpdT 4, [0xAA#8]) := by rfl
theorem test_decode_truncated : decode Config.engines [0x02#8, 0x03#8, 0x00#8] = .error .truncated := by rfl
/-- V-CTL-6. -/
theorem test_decode_reserved_bits : decodeWord Config.engines 0x00000402#32 = .error .reservedBits := by rfl
/-- V-CTL-8. -/
theorem test_decode_unknown_opcode : decodeWord Config.engines 0x000000FF#32 = .error (.unknownOpcode 0xFF#8) := by rfl
/-- V-CTL-4. -/
theorem test_decode_reserved_format : decodeWord Config.engines 0x00000304#32 = .error .reservedFormat := by rfl
/-- V-CTL-5. -/
theorem test_decode_nonzero_arg : decodeWord Config.engines 0x00000101#32 = .error (.nonzeroArg 0x01#8) := by rfl
/-- R48(e). -/
theorem test_decode_engine_absent :
    decodeWord { table := true, serial := false } 0x00000003#32 = .error (.engineAbsent 0x03#8) := by rfl

/-! ## One command on a small state -/

/-- The next state, if there is one. -/
def after (o : Host.Outcome State Fault Refusal) : Option State :=
  match o with
  | .next t => some t
  | .fault _ => none
  | .refused _ => none

/-- An idle block with these registers. -/
def idleWith (r d xi : Word) : State := ((State.reset.setR r).setD d).setXi xi

/-- That block with `cmd` pending. -/
def busyWith (cmd : PendCmd) (r d xi : Word) : State := acceptMulti cmd (idleWith r d xi)

/-- V-CTL-1. -/
theorem test_nop : after (exec .nop State.reset) = some State.reset := by decide
/-- R80: a `NOP` while busy sets `BERR`. -/
theorem test_nop_busy : (after (exec .nop (busyWith .q17s 0 0 0))).map (·.status) =
    some { busy := true, ill := false, berr := true } := by decide
/-- V-CMD-1. -/
theorem test_crcInit : (after (exec .crcInit (idleWith 0x12345678#32 0 0))).map (·.r) = some 0xFFFFFFFF#32 := by decide
/-- V-CMD-6: bytes 2 and 3 of `D` are ignored. -/
theorem test_crcUpdT_two : (complete (busyWith (.updT 1#2) 0xFFFFFFFF#32 0xDEAD3231#32 0)).r = 0xB0ACBB32#32 := by decide +kernel
/-- R100: acceptance changes `PEND` and `BUSY` only. -/
theorem test_crcUpdT_accept : after (exec (.crcUpdT 2) (idleWith 1#32 2#32 3#32)) =
    some { idleWith 1#32 2#32 3#32 with
      pend := some { cmd := .updT 1#2, r0 := 1#32, d0 := 2#32, x0 := 3#32 }
      status := { busy := true, ill := false, berr := false } } := by decide
/-- V-CMD-7. -/
theorem test_crcUpdS_three : (complete (busyWith (.updS 2#2) 0xFFFFFFFF#32 0xEE333231#32 0)).r = 0x77B79C2D#32 := by decide +kernel
/-- V-RES-1, with the bit-serial engine. -/
theorem test_crcUpdS_residue :
    (complete (busyWith (.updS 3#2) 0x340BC6D9#32 0xCBF43926#32 0)).r = 0xDEBB20E3#32 := by decide +kernel
/-- V-PKT-3: a negative value. -/
theorem test_fxQ17S_negative : (complete (busyWith .q17s 0 0 0xFFFFECFC#32)).xo = 0xBD182000#32 := by decide
/-- V-FX-19: a tie goes to the even fraction, here up. -/
theorem test_fxQ17S_tie : (complete (busyWith .q17s 0 0 0x01000003#32)).xo = 0x43000002#32 := by decide
/-- V-FX-32: rounding carries into a new bit. -/
theorem test_fxQ21S_carry : (complete (busyWith .q21s 0 0 0x7FFFFFFF#32)).xo = 0x44800000#32 := by decide
/-- V-FX-30. -/
theorem test_fxQ21S_minus_one : (complete (busyWith .q21s 0 0 0xFFE00000#32)).xo = 0xBF800000#32 := by decide
/-- V-FX-38: the raw value is unsigned. -/
theorem test_fxQ15U_unsigned : (complete (busyWith .q15u 0 0 0x80000000#32)).xo = 0x47800000#32 := by decide
/-- V-FX-40. -/
theorem test_fxQ15U_pressure : (complete (busyWith .q15u 0 0 0x01F54768#32)).xo = 0x447AA3B4#32 := by decide
/-- R81's example: `STATUS` = 6, then `ERR.CLR`, gives 0. -/
theorem test_errClr : (after (exec .errClr (State.reset.setStatus { busy := false, ill := true, berr := true }))).map
    (·.status.word) = some 0x00000000#32 := by decide
/-- V-BSY-3. -/
theorem test_errClr_busy : (after (exec .errClr (busyWith (.updS 0#2) 0 0 0))).map (·.status.word) =
    some 0x00000005#32 := by decide

/-! ## The bus, the step, the host -/

/-- V-CTL-3. -/
theorem test_illegal_word : (after (step (State.reset.setInputs [.write 0x000#11 4 6]))).map (·.status.word) =
    some 0x00000002#32 := by decide
/-- V-BUS-1: a 32-bit read at offset 6 faults. -/
theorem test_misaligned_read :
    step (State.reset.setInputs [.read 0x006#11 4]) = .fault (.busFault 0x006#11) := by rfl
/-- V-BUS-2: a 16-bit write to `CMD` while busy is a `BusFault`. -/
theorem test_narrow_write_busy :
    step ((busyWith .q17s 0 0 0).setInputs [.write 0x000#11 2 0]) = .fault (.busFault 0x000#11) := by rfl
/-- V-TAB-5. -/
theorem test_table_read : (after (memRead Config.engines 0x738#11 4 State.reset)).map (·.reads) =
    some [{ off := 0x738#11, value := 0x7CDCEFB7#32 }] := by decide
/-- V-BUS-3: `CONFIG` reads 3. -/
theorem test_config_read : (after (memRead Config.engines 0x01C#11 4 State.reset)).map (·.reads) =
    some [{ off := 0x01C#11, value := 0x00000003#32 }] := by decide
/-- V-BSY-4: `STATUS` reads 1 while a command is pending. -/
theorem test_status_read_busy : (after (memRead Config.engines 0x004#11 4 (busyWith (.updT 3#2) 0 0 0))).map (·.reads) =
    some [{ off := 0x004#11, value := 0x00000001#32 }] := by decide
/-- The first step after reset runs the command that `withFetchWord` places (V-CTL-2's word). -/
theorem test_withFetchWord : (after (step (State.reset.withFetchWord 32 0x00000302))).map (·.pend) =
    some (some { cmd := .updT 3#2, r0 := 0xFFFFFFFF#32, d0 := 0, x0 := 0 }) := by decide
/-- V-MSG-8: the check value. -/
theorem test_check_value :
    crc32 [0x31#8, 0x32#8, 0x33#8, 0x34#8, 0x35#8, 0x36#8, 0x37#8, 0x38#8, 0x39#8] = 0xCBF43926#32 := by decide +kernel
/-- R51: `CRC.WORD` stands for `CRC.UPD.T 4`. -/
theorem test_assemble_word : assemble ['C', 'R', 'C', '.', 'W', 'O', 'R', 'D'] = some 0x00000302#32 := by decide
/-- V-BUS-5: `ldm` and the lanes: byte 0 of 0x11223344 is 0x44. -/
theorem test_ldm_bytes : hostMemWord [0x44#8, 0x33#8, 0x22#8, 0x11#8] 0 = 0x11223344#32 := by decide

/-! ## Witnesses: the hypotheses of each statement hold together -/

theorem witness_EncodedCommandsDecodeToThemselves :
    Instr.wellFormed Config.engines (.crcUpdT 1) = true ∧ Instr.wellFormed Config.engines (.crcUpdS 4) = true := by decide
/-- A text in the place of the count at each kind of boundary: none, 0, 5, and a longer spelling. -/
theorem witness_AssemblerGivesTheWords : ∀ x ∈ [[], ['0'], ['5'], ['0', '4']],
    ' ' ∉ x ∧ x ∉ [['1'], ['2'], ['3'], ['4']] := by decide
theorem witness_DecodedWordsEncodeBack : decodeWord Config.engines 0x00000302#32 = .ok (.crcUpdT 4) := by rfl
theorem witness_OpcodeRowsAgreeWithTheDecoder : ∃ row, decodeWord Config.engines 0x00000302#32 = .ok (.crcUpdT 4) ∧
    row ∈ opcodeTable ∧ row.spells 0x00000302#32 = true := ⟨opcodeTable[2], rfl, by decide, by decide⟩
/-- One word for each clause of R48. -/
theorem witness_ReservedEncodingsAreIllegal : State.reset.pend = none ∧ (0x00000400#32 : Word).extractLsb' 10 22 ≠ 0#22 ∧
    0x06 ≤ ((0x00000006#32 : Word).extractLsb' 0 8).toNat ∧
    ((0x00000304#32 : Word).extractLsb' 0 8 = 0x04#8 ∧ (0x00000304#32 : Word).extractLsb' 8 2 = 0b11#2) ∧
    ((0x00000105#32 : Word).extractLsb' 0 8 ∈ [0x00#8, 0x01#8, 0x05#8] ∧ (0x00000105#32 : Word).extractLsb' 8 2 ≠ 0b00#2) ∧
    ((0x00000002#32 : Word).extractLsb' 0 8 = 0x02#8 ∧ Engines.table { table := false, serial := true } = false) ∧
    ((0x00000003#32 : Word).extractLsb' 0 8 = 0x03#8 ∧ Engines.serial { table := true, serial := false } = false) ∧
    legal Config.engines 0x80000302#32 = false := by
  decide
theorem witness_StepRunsTheDecodedCommand_next :
    (State.reset.setInputs [.reset]).inputs = [.reset] ∧ State.reset.inputs = [] := by decide
theorem witness_StepRunsTheDecodedCommand : decodeWord Config.engines 0x00000001#32 = .ok .crcInit ∧
    (State.reset.setInputs [.write 0x000#11 4 1]).inputs = [.write 0x000#11 4 (0x00000001#32).toNat] := ⟨rfl, by decide⟩
/-- For `NopDoesNothing`, `ErrClrClearsTheStickyFlags`, `CrcInitStartsAMessage`, `CrcUpdTAbsorbsBytes`, `CrcUpdSAbsorbsBytes`,
`FxQ17SConverts`, `FxQ21SConverts`, `FxQ15UConverts` and `CrcResultIsAView`: an idle state, a busy one, the bounds of the count, and an illegal
word with the opcode of each command. -/
theorem witness_command_statements : (1 : Nat) ≤ 1 ∧ (4 : Nat) ≤ 4 ∧ State.reset.pend = none ∧ (busyWith .q17s 0 0 0).pend ≠ none ∧
    ((0x00000100#32 : Word).extractLsb' 0 8 = 0x00#8 ∧ (0x00000100#32 : Word) ≠ 0x00000000#32) ∧
    ((0x00000105#32 : Word).extractLsb' 0 8 = 0x05#8 ∧ (0x00000105#32 : Word) ≠ 0x00000005#32) ∧
    ((0x00000101#32 : Word).extractLsb' 0 8 = 0x01#8 ∧ (0x00000101#32 : Word) ≠ 0x00000001#32) ∧
    ((0x00000402#32 : Word).extractLsb' 0 8 = 0x02#8 ∧ (0x00000402#32 : Word).extractLsb' 10 22 ≠ 0#22) ∧
    ((0x80000303#32 : Word).extractLsb' 0 8 = 0x03#8 ∧ (0x80000303#32 : Word).extractLsb' 10 22 ≠ 0#22) := by decide
theorem witness_CommandFrame_idle : ∃ t, exec (.crcUpdS 4) (idleWith 1#32 2#32 3#32) = .next t := ⟨_, rfl⟩
theorem witness_CommandFrame_busy : ∃ t, exec .errClr (busyWith .q21s 1#32 2#32 3#32) = .next t := ⟨_, rfl⟩
theorem witness_AcceptanceRecordsTheCommand_busy : (busyWith .q17s 0 0 0).pend ≠ none := by decide
theorem witness_AcceptanceRecordsTheCommand : State.reset.pend = none ∧ legal Config.engines 0x00000006#32 = false ∧
    decodeWord Config.engines 0x00000005#32 = .ok .errClr ∧ Instr.isMulti .errClr = false ∧
    decodeWord Config.engines 0x00000204#32 = .ok .fxQ15U ∧ Instr.isMulti .fxQ15U = true :=
  ⟨rfl, by decide, rfl, rfl, rfl, rfl⟩
theorem witness_CompletionWritesTheResult :
    (busyWith (.updT 3#2) 1#32 2#32 3#32).pend = some { cmd := .updT 3#2, r0 := 1#32, d0 := 2#32, x0 := 3#32 } ∧
    PendCmd.op (.updT 3#2) = 0x02#8 ∧ PendCmd.op (.updS 0#2) = 0x03#8 ∧
    (PendCmd.op .q17s = 0x04#8 ∧ PendCmd.arg .q17s = 0b00#2) ∧ (PendCmd.op .q21s = 0x04#8 ∧ PendCmd.arg .q21s = 0b01#2) ∧
    (PendCmd.op .q15u = 0x04#8 ∧ PendCmd.arg .q15u = 0b10#2) ∧ State.reset.pend = none := by decide
theorem witness_PendingCommandsComplete :
    ((busyWith .q17s 0 0 0).setInputs [.read 0x004#11 4, .write 0x010#11 4 7]).pend ≠ none ∧
    [Event.read 0x004#11 4, .write 0x010#11 4 7].all busClean = true := by decide
theorem witness_StatusReadsTheFlags : 3 ≤ 31 ∧ BlockInv State.reset ∧ BlockInv (busyWith .q17s 1#32 2#32 3#32) := by decide
/-- For `ReadsFollowTheRegisterMap`, `WritesFollowTheRegisterMap`, `ReadOnlyWritesAreIgnored` and `OneEventByPriority`: an aligned offset of each
register and of both ends of the reserved range and the table, and two accesses that fault. -/
theorem witness_register_map :
    (∀ off ∈ [0x000#11, 0x004#11, 0x008#11, 0x00C#11, 0x010#11, 0x014#11, 0x018#11, 0x01C#11, 0x020#11, 0x3FC#11,
        0x400#11, 0x7FC#11], (BitVec.extractLsb' 0 2 (off : Offset)) = 0#2) ∧
    0x020 ≤ (0x020#11).toNat ∧ (0x3FC#11).toNat < 0x400 ∧ 0x400 ≤ (0x400#11).toNat ∧
    (0x7FD#11).extractLsb' 0 2 ≠ 0#2 ∧ (2 : Nat) ≠ 4 := by decide
theorem witness_BusFaultExactly : (State.reset.setInputs [.read 0x004#11 1]).inputs = [.read 0x004#11 1] ∧ (1 : Nat) ≠ 4 := by
  decide
theorem witness_BusyWritesAreDropped : (busyWith (.updT 3#2) 0 0 0).pend ≠ none ∧
    0x014#11 ∈ [0x000#11, 0x008#11, 0x010#11, 0x014#11] ∧
    0x7FC#11 ∉ [0x000#11, 0x008#11, 0x010#11, 0x014#11] ∧ (0x7FC#11).extractLsb' 0 2 = 0#2 := by decide
theorem witness_ReadsAndWritesRepeat :
    (∃ t, memRead Config.engines 0x004#11 4 State.reset = .next t) ∧
    (∃ t, memWrite Config.engines 0x010#11 4 7 State.reset = .next t) ∧
    (∃ t, memWrite Config.engines 0x014#11 4 7 (busyWith .q17s 0 0 0) = .next t) := ⟨⟨_, rfl⟩, ⟨_, rfl⟩, ⟨_, rfl⟩⟩
/-- For `CrcStateChangesOnlyAsListed`, `OperandsChangeOnlyByHostWrites` and `FxOutChangesOnlyByCompletion`: a next state for each clause. -/
theorem witness_register_changes :
    (∃ t, step (State.reset.setInputs [.write 0x008#11 4 1]) = .next t ∧ t.r ≠ State.reset.r) ∧
    (∃ t, step ((idleWith 0 0 0).setInputs [.write 0x000#11 4 1]) = .next t ∧ t.r ≠ 0#32) ∧
    (∃ t, step ((busyWith (.updT 0#2) 0 1#32 0).setInputs [.complete]) = .next t ∧ t.r ≠ 0#32) ∧
    (∃ t, step (State.reset.setInputs [.write 0x010#11 4 1]) = .next t ∧ t.d ≠ State.reset.d) ∧
    (∃ t, step (State.reset.setInputs [.write 0x014#11 4 1]) = .next t ∧ t.xi ≠ State.reset.xi) ∧
    (∃ t, step (busyWith .q17s 0 0 1#32) = .next t ∧ t.xo ≠ 0#32) ∧
    (∃ t, step ((idleWith 0 1#32 1#32).setInputs [.reset]) = .next t ∧ t.d ≠ 1#32) := by
  refine ⟨⟨_, rfl, ?_⟩, ⟨_, rfl, ?_⟩, ⟨_, rfl, ?_⟩, ⟨_, rfl, ?_⟩, ⟨_, rfl, ?_⟩, ⟨_, rfl, ?_⟩, ⟨_, rfl, ?_⟩⟩ <;> decide
theorem witness_OnlyCmdWritesIssueCommands : ∃ t p, step (State.reset.setInputs [.write 0x000#11 4 0x104]) = .next t ∧
    State.reset.pend = none ∧ t.pend = some p := ⟨_, _, rfl, rfl, rfl⟩
theorem witness_ErrorFlagsAreSticky :
    ∃ s t : State, step s = .next t ∧ s.status.ill = true ∧ t.status.ill = false ∧ s.status.berr = true ∧
      t.status.berr = false :=
  ⟨(State.reset.setStatus { busy := false, ill := true, berr := true }).setInputs [.write 0x000#11 4 5], _, rfl, rfl,
    rfl, rfl, rfl⟩
theorem witness_BusyMatchesPendAlways : BlockInv (busyWith (.updT 3#2) 1#32 2#32 3#32) ∧
    ∃ t, step (busyWith (.updT 3#2) 1#32 2#32 3#32) = .next t := ⟨by decide, _, rfl⟩
theorem witness_FxOutIsAlwaysACodecPattern :
    codecPattern (State.reset.setXo 0x3F800000#32).xo = true ∧ ∃ t, step (State.reset.setXo 0x3F800000#32) = .next t :=
  ⟨by decide, _, rfl⟩
/-- A host at its first statement whose block is idle, and the same host after a STATUS read that returned `BUSY` = 0. -/
def freshHost (d : Word) : HostRun := HostRun.start (Vector.replicate 8 0) [] (idleWith 0 d 0)
def polledHost (d : Word) : HostRun := hostNoteLoad 0x004#11 0 (freshHost d)

/-- R108: a `st DATA` after the last STATUS read does not move the end state, though it changes the block. -/
theorem test_end_state_at_the_read : ∃ h, hostExec (.stImm 0x010#11 7#32) (polledHost 5#32) = .next h ∧
    (endState h).regs.d = 5#32 ∧ h.dev.d = 7#32 := ⟨_, rfl, by decide, by decide⟩
/-- R108: a program has ended past its last statement, but not while its multi-cycle command is not seen complete. -/
theorem test_host_ended : hostEnded [] (freshHost 0) = true ∧
    hostEnded [.halt] (hostNoteStore 0x000#11 0x00000302#32 (polledHost 0)) = false ∧ hostEnded [.halt] (polledHost 0) = true :=
  ⟨by rfl, by rfl, by rfl⟩
theorem witness_HostPollWaitsForCompletion_moves_on :
    ∃ h', hostStep [.poll] (freshHost 0) = .next h' ∧ BlockInv (freshHost 0).dev ∧ h'.pos = 1 := ⟨_, rfl, by decide, rfl⟩
theorem witness_HostPollWaitsForCompletion_end :
    (∃ h', hostStore 0x010#11 7#32 (polledHost 5#32) = .next h') ∧ issuesMulti 0x010#11 7#32 = false ∧
    (polledHost 5#32).seen ≠ none ∧
    (∃ h', hostStore 0x000#11 0x00000302#32 (polledHost 5#32) = .next h') ∧ issuesMulti 0x000#11 0x00000302#32 = true :=
  ⟨⟨_, rfl⟩, by rfl, by decide, ⟨_, rfl⟩, by rfl⟩
theorem witness_HostPollWaitsForCompletion :
    ∃ h h' : HostRun, [HostStmt.poll][h.pos]? = some .poll ∧ BlockInv h.dev ∧ hostStep [.poll] h = .next h' :=
  ⟨{ regs := Vector.replicate 8 0, pos := 0, buf := [], issued := true, seen := none, reads := [], dev := busyWith .q17s 0 0 0 },
    _, rfl, by decide, rfl⟩
theorem witness_CrcStepAndByteExamples : (0x00000001#32).getLsbD 0 = true ∧ (0x00000002#32).getLsbD 0 = false := by decide
theorem witness_CrcIsLinear : [0x31#8].length = [0x32#8].length := by decide
theorem witness_MessagesGetTheirCrc : State.reset.pend = none ∧
    ∀ c ∈ [{ serial := true, nb := 1, data := 0x31#32, early := 2, late := 1 : Piece },
      { serial := false, nb := 4, data := 0x35343332#32, early := 0, late := 0 }], 1 ≤ c.nb ∧ c.nb ≤ 4 := by decide
theorem witness_ByteErrorsAreDetected : (0x12#8 : Byte) ≠ 0x1D#8 := by decide
/-- For `CodecRoundsToNearestEven`, `CodecIsExactUpTo24Bits`, `CodecResultsAreNormal` and `CodecRanges`. -/
theorem witness_codec_statements : (-(2 ^ 31) : Int) ≤ 0x01000001 ∧ (0x01000001 : Int) ≤ 2 ^ 32 - 1 ∧ 17 ∈ [15, 17, 21] ∧
    isNormal32 0x43000000#32 = true ∧ (0x01000001 : Int) ≠ 0 := by decide
/-- The same at the ends of the range and in the other two formats. -/
theorem witness_codec_statements_ends : (-(2 ^ 31) : Int) ≤ -(2 ^ 31) ∧ (-(2 ^ 31) : Int) ≤ 2 ^ 32 - 1 ∧
    (2 ^ 32 - 1 : Int) ≤ 2 ^ 32 - 1 ∧ 15 ∈ [15, 17, 21] ∧ 21 ∈ [15, 17, 21] ∧
    isNormal32 0xC7000000#32 = true ∧ isNormal32 0x48000000#32 = true ∧ (0x00000001#32 : Word) ≠ 0#32 := by decide
theorem witness_ConversionsRepeat : Instr.fxQ15U ∈ [Instr.fxQ17S, .fxQ21S, .fxQ15U] ∧ State.reset.pend = none := by decide
/-- (Also for `HazardFreeRunsLoseNoWrite`.) Two runs that do the same: one polls before the completion, the other completes at once. -/
theorem witness_HazardFreeRunsAgree :
    ∃ t t' : State,
      keepsHazardRule Config.engines [.write 0x000#11 4 0x4, .read 0x004#11 4, .complete, .read 0x018#11 4] State.reset = true ∧
      keepsHazardRule Config.engines [.write 0x000#11 4 0x4, .complete, .read 0x018#11 4] State.reset = true ∧
      [Event.write 0x000#11 4 0x4, .read 0x004#11 4, .complete, .read 0x018#11 4].filter hostDoes =
        [Event.write 0x000#11 4 0x4, .complete, .read 0x018#11 4].filter hostDoes ∧
      serveAll Config.engines [.write 0x000#11 4 0x4, .read 0x004#11 4, .complete, .read 0x018#11 4] State.reset = .next t ∧
      serveAll Config.engines [.write 0x000#11 4 0x4, .complete, .read 0x018#11 4] State.reset = .next t' ∧
      State.reset.status.berr = false := ⟨_, _, by decide, by decide, by decide, rfl, rfl, rfl⟩
theorem witness_BlocksAreIndependent :
    (∃ p', stepBlock 0 [{ base := 0x800, dev := State.reset }, { base := 0x1000, dev := State.reset }] = .next p' ∧
      [({ base := 0x800, dev := State.reset } : Block), { base := 0x1000, dev := State.reset }][0]? =
        some { base := 0x800, dev := State.reset }) ∧
    MemAccess.toEvent 0x800 (.memRead 0x1000 4) = none ∧ windowOffset 0x800 0xFFF = some 0x7FF#11 ∧
    windowOffset 0x800 0x1000 = none ∧ windowOffset 0x800 0x7FF = none ∧
    windowsApart [{ base := 0x800, dev := State.reset }, { base := 0x1000, dev := State.reset }] := by
  refine ⟨⟨_, rfl, rfl⟩, by decide, by decide, by decide, by decide, ?_⟩
  unfold windowsApart
  decide

end Sys2Proof.Tests
end

section
/-! SUPPORT. Proofs about the registers of the block (spec/10_state.md): which steps change `FX_OUT`, what the views `CRC_RESULT` and
`CONFIG` read as, and the values after reset. -/

namespace Sys2Proof.Machine

variable (e : Engines) (s : State)

/-! ### FX_OUT: who changes it (10_state.md R18) -/

theorem exec_xo {i : Instr} {t : State} (h : exec i s = .next t) : t.xo = s.xo := by
  rcases exec_cases s h with ⟨_, _, rfl⟩ | ⟨_, ⟨_, rfl⟩ | ⟨_, rfl⟩ | ⟨_, rfl⟩ | ⟨_, c, rfl⟩⟩ <;> rfl

theorem accept_xo {w : Word} {t : State} (h : accept e w s = .next t) : t.xo = s.xo := by
  rcases accept_cases e s w with ⟨i, _, legalWord⟩ | ⟨x, _, illegalWord⟩
  · rw [legalWord] at h
    exact exec_xo s h
  · rw [illegalWord] at h
    cases h
    rfl

/-- No write changes `FX_OUT`: a write to it is ignored, and a command written to `CMD` at most becomes pending. -/
theorem memWrite_xo {off : Offset} {n v : Nat} {t : State} (h : memWrite e off n v s = .next t) : t.xo = s.xo := by
  rcases memWrite_next e s h with
    ⟨_, ⟨_, _, _, rfl⟩ | ⟨_, rfl⟩ | ⟨_, _, accepted⟩ | ⟨_, _, rfl⟩ | ⟨_, _, rfl⟩ | ⟨_, _, rfl⟩⟩
  · rfl
  · rfl
  · exact accept_xo e s accepted
  · rfl
  · rfl
  · rfl

theorem recordRead_xo (off : Offset) : (recordRead e off s).xo = s.xo := by
  obtain ⟨-, -, -, hxo, -⟩ := recordRead_frame e s off
  exact hxo

@[simp] theorem applyReset_xo : (applyReset s).xo = 0x00000000#32 := rfl

/-- `v` is the pattern that the pending record's conversion gives of its captured operand; no pattern for a CRC command. -/
def IsConversionOf (p : Pend) (v : Word) : Prop :=
  (p.cmd = .q17s ∧ v = fxToBinary32 p.x0.toInt 17) ∨ (p.cmd = .q21s ∧ v = fxToBinary32 p.x0.toInt 21) ∨
    (p.cmd = .q15u ∧ v = fxToBinary32 (Int.ofNat p.x0.toNat) 15)

/-- A turn of the unit changes `FX_OUT` only to the pattern of a pending conversion (70_reset_and_hazards.md R101). -/
theorem complete_xo : (complete s).xo = s.xo ∨ ∃ p, s.pend = some p ∧ IsConversionOf p (complete s).xo := by
  cases hp : s.pend with
  | none => rw [complete_idle s hp]; exact .inl rfl
  | some p =>
    rcases complete_pending s hp with ⟨_, _, eq⟩ | ⟨_, _, eq⟩ | ⟨hc, eq⟩ | ⟨hc, eq⟩ | ⟨hc, eq⟩
    · rw [eq]; exact .inl rfl
    · rw [eq]; exact .inl rfl
    · rw [eq]; exact .inr ⟨p, rfl, .inl ⟨hc, rfl⟩⟩
    · rw [eq]; exact .inr ⟨p, rfl, .inr (.inl ⟨hc, rfl⟩)⟩
    · rw [eq]; exact .inr ⟨p, rfl, .inr (.inr ⟨hc, rfl⟩)⟩

/-- Of the four kinds of event only reset and a turn of the unit change `FX_OUT`. -/
theorem serve_xo {ev : Event} {t : State} (h : serve e ev s = .next t) :
    t.xo = s.xo ∨ (ev = .reset ∧ t.xo = 0x00000000#32) ∨
      (ev = .complete ∧ ∃ p, s.pend = some p ∧ IsConversionOf p t.xo) := by
  rcases serve_next e s h with ⟨off, _, _, _, rfl⟩ | ⟨_, _, _, _, written⟩ | ⟨hev, rfl⟩ | ⟨hev, rfl⟩
  · exact .inl (recordRead_xo e s off)
  · exact .inl (memWrite_xo e s written)
  · exact (complete_xo s).imp_right fun conversion => .inr ⟨hev, conversion⟩
  · exact .inr (.inl ⟨hev, applyReset_xo s⟩)

/-- Settles O35, from what one turn of the unit (`complete_xo`) and one event (`serve_xo`) do to `FX_OUT`. -/
theorem fxOutChangesOnlyByCompletion : Obligations.FxOutChangesOnlyByCompletion := by
  intro s t h
  rcases step_next s h with ⟨noInput, rfl⟩ | ⟨ev, rest, hin, served⟩
  · rcases complete_xo s with same | ⟨p, hp, conversion⟩
    · exact .inl same
    · exact .inr (.inr ⟨p, hp, .inl noInput, conversion⟩)
  · rcases serve_xo Config.engines (s.setInputs rest) served with same | ⟨rfl, zero⟩ | ⟨rfl, p, hp, conversion⟩
    · exact .inl same
    · exact .inr (.inl ⟨rest, hin, zero⟩)
    · exact .inr (.inr ⟨p, hp, .inr ⟨rest, hin⟩, conversion⟩)

/-! ### Reads that take no draw (20_memory.md R31) -/

theorem takesDraw_idle (reg : WinReg) (h : s.pend = none) : takesDraw reg s = false := by simp [takesDraw, h]

@[simp] theorem takesDraw_config : takesDraw .config s = false := rfl

/-- A read that takes no draw adds its reply and leaves everything else as it is. -/
theorem memRead_noDraw {off : Offset} {n : Nat} (ok : accessOk off n = true) (h : takesDraw (winReg off) s = false) :
    memRead e off n s = .next (s.pushRead { off := off, value := readValue e (winReg off) s }) := by
  rw [memRead_ok e s ok, recordRead_eq, h]
  rfl

theorem readValue_crcResult_idle (h : s.pend = none) : readValue e .crcResult s = s.r ^^^ 0xFFFFFFFF#32 := by
  rw [readValue, takesDraw_idle s .crcResult h]
  rfl

@[simp] theorem readValue_config : readValue e .config s = configWord e := rfl

@[simp] theorem readValue_status : readValue e .status s = s.status.word := rfl

@[simp] theorem readValue_table (i : BitVec 8) : readValue e (.table i) s = tableEntry i := rfl

/-! ### CRC_RESULT (10_state.md R15) -/

theorem readValue_crcResult_reset : readValue e .crcResult State.reset = 0x00000000#32 :=
  (readValue_crcResult_idle e State.reset rfl).trans (by decide)

/-- Settles O29: the reply of an idle read is `R` with the final XOR, and `CRC_RESULT` is no register that a write changes. -/
theorem crcResultIsAView : Obligations.CrcResultIsAView := by
  refine ⟨fun e s hp => ?_, fun e v s => ?_, readValue_crcResult_reset⟩
  · rw [memRead_noDraw e s (by decide) (takesDraw_idle s _ hp), winReg_crcResult, readValue_crcResult_idle e s hp]
    rfl
  · exact memWrite_ignored e s (by decide) (by decide)

/-! ### CONFIG (10_state.md R20) -/

/-- Each engine's flag stands at its bit of the `CONFIG` word. -/
theorem configWord_bits : (configWord e).getLsbD 0 = e.table ∧ (configWord e).getLsbD 1 = e.serial := by
  rcases e with ⟨table, serial⟩
  cases table <;> cases serial <;> decide

/-- Bits 31:2 of the `CONFIG` word are zero. -/
theorem configWord_reserved {k : Nat} (hk : 2 ≤ k) : (configWord e).getLsbD k = false := by
  have aboveSerial : ¬ k - 1 < 1 := by omega
  have aboveTable : ¬ k < 1 := by omega
  calc (configWord e).getLsbD k
      = ((0#30 ++ flagBit e.serial) ++ flagBit e.table).getLsbD k := rfl
    _ = (0#30).getLsbD (k - 1 - 1) := by
      rw [BitVec.getLsbD_append, if_neg aboveTable, BitVec.getLsbD_append, if_neg aboveSerial]
    _ = false := BitVec.getLsbD_zero

theorem configWord_engines : configWord Config.engines = 0x00000003#32 := by decide

/-- Settles O30: the bits of the constant word, and an access to `CONFIG` that neither draws nor is dropped, in any state. -/
theorem configIsConstant : Obligations.ConfigIsConstant := by
  refine ⟨fun e => ?_, fun s => ?_, fun e v s => ?_⟩
  · obtain ⟨table, serial⟩ := configWord_bits e
    exact ⟨table, serial, fun k hk => configWord_reserved e hk⟩
  · rw [memRead_noDraw Config.engines s (by decide) (by rw [winReg_config, takesDraw_config]), winReg_config,
      readValue_config, configWord_engines]
    rfl
  · exact memWrite_ignored e s (by decide) (by decide)

/-! ### The state after reset (10_state.md R26) -/

/-- R77's listing is the table of R65, entry by entry. -/
theorem romListing_eq_map : romListing = (List.range 256).map fun k => tableEntry (BitVec.ofNat 8 k) := by
  decide +kernel

theorem romListing_getElem? (n : BitVec 8) : romListing[n.toNat]? = some (tableEntry n) := by
  have hn : n.toNat < 256 := n.isLt
  simp [romListing_eq_map, List.getElem?_range hn]

/-- Settles O43: the fields as `State.reset` gives them, the views of them, and the table by its listing. -/
theorem resetLeavesTheListedValues : Obligations.ResetLeavesTheListedValues := by
  refine ⟨rfl, rfl, rfl, rfl, rfl, rfl, readValue_crcResult_reset Config.engines, ?_, ?_, fun n => ?_⟩
  · rw [readValue_status]
    decide
  · rw [readValue_config, configWord_engines]
  · rw [readValue_table, romListing_getElem?]

end Sys2Proof.Machine
end

section
/-! SUPPORT. Proofs about the register window (spec/20_memory.md): which offsets hold a register that a write can change, which
accesses fault, and what a write at each offset answers. -/

namespace Sys2Proof.Machine

variable (e : Engines) (s : State)

/-! ### The register map by ranges of offsets (20_memory.md R29, R32, R37) -/

/-- The registers whose write a pending command drops stand at the four offsets of R32. -/
theorem dropsWhileBusy_winReg_iff (off : Offset) :
    (winReg off).dropsWhileBusy = true ↔ off ∈ [0x000#11, 0x008#11, 0x010#11, 0x014#11] := by
  constructor
  · unfold winReg
    split_ifs <;> simp_all [WinReg.dropsWhileBusy]
  · intro listed
    fin_cases listed
    · rw [winReg_cmd]; rfl
    · rw [winReg_crcState]; rfl
    · rw [winReg_data]; rfl
    · rw [winReg_fxRaw]; rfl

theorem dropsWhileBusy_winReg_eq_false {off : Offset} (h : off ∉ [0x000#11, 0x008#11, 0x010#11, 0x014#11]) :
    (winReg off).dropsWhileBusy = false :=
  Bool.eq_false_iff.mpr (mt (dropsWhileBusy_winReg_iff off).mp h)

theorem winReg_reserved {off : Offset} (above : 0x020 ≤ off.toNat) (below : off.toNat < 0x400) :
    winReg off = .reserved := by
  have notNamed (k : Offset) (hk : k.toNat < 0x020) : off ≠ k := by
    rintro rfl
    omega
  simp (disch := decide) only [winReg, notNamed, if_false, if_neg (Nat.not_le.mpr below)]

/-- The read-only registers, the reserved range and the table (R37) are none of the offsets of R32 that hold a register a write
changes. -/
theorem readOnly_not_written {off : Offset}
    (h : off ∈ [0x004#11, 0x00C#11, 0x018#11, 0x01C#11] ∨ 0x020 ≤ off.toNat) :
    off ∉ [0x000#11, 0x008#11, 0x010#11, 0x014#11] := by
  intro written
  rcases h with readOnly | above
  · fin_cases readOnly <;> revert written <;> decide
  · fin_cases written <;> revert above <;> decide

/-! ### Which accesses fault (20_memory.md R35) -/

theorem accessOk_eq_false_iff (off : Offset) (n : Nat) :
    accessOk off n = false ↔ n ≠ 4 ∨ off.extractLsb' 0 2 ≠ 0#2 := by
  rw [← Bool.not_eq_true, accessOk_iff, not_and_or]

/-- No command faults or is refused. -/
theorem exec_total (i : Instr) : ∃ t, exec i s = .next t := by
  obtain ⟨f, served, -⟩ := exec_issue s i
  rw [served]
  cases hp : s.pend with
  | none => exact ⟨_, issue_idle s hp⟩
  | some p => exact ⟨_, issue_busy s hp⟩

theorem accept_total (w : Word) : ∃ t, accept e w s = .next t := by
  rcases accept_cases e s w with ⟨i, -, legalWord⟩ | ⟨x, -, illegalWord⟩
  · rw [legalWord]
    exact exec_total s i
  · exact ⟨_, illegalWord⟩

theorem writeReg_total (reg : WinReg) (v : Word) : ∃ t, writeReg e reg v s = .next t := by
  cases reg with
  | cmd => exact accept_total e s v
  | crcState | data | fxRaw | status | crcResult | fxOut | config | reserved | table i => exact ⟨_, rfl⟩

/-- A write that is 32 bits wide and aligned is served, whatever it writes and wherever (R32). -/
theorem memWrite_total {off : Offset} {n : Nat} (v : Nat) (ok : accessOk off n = true) :
    ∃ t, memWrite e off n v s = .next t := by
  cases hd : (winReg off).dropsWhileBusy with
  | false => exact ⟨s, memWrite_ignored e s ok hd⟩
  | true =>
    cases hp : s.pend with
    | none => rw [memWrite_idle e s ok hp]; exact writeReg_total e s _ _
    | some p => exact ⟨_, memWrite_busy e s ok hd hp⟩

theorem memRead_fault_iff (off : Offset) (n : Nat) :
    memRead e off n s = .fault (.busFault off) ↔ accessOk off n = false := by
  cases ok : accessOk off n with
  | false => simp [memRead_fault e s ok]
  | true => simp [memRead_ok e s ok]

theorem memWrite_fault_iff (off : Offset) (n v : Nat) :
    memWrite e off n v s = .fault (.busFault off) ↔ accessOk off n = false := by
  cases ok : accessOk off n with
  | false => simp [memWrite_fault e s ok]
  | true =>
    obtain ⟨t, served⟩ := memWrite_total e s v ok
    simp [served]

/-- The step that serves a narrow, wide or misaligned access stops with its fault (60_exceptions.md R85). -/
theorem step_busFault {off : Offset} {n v : Nat} {ev : Event} {rest : List Event} (hin : s.inputs = ev :: rest)
    (access : ev = .read off n ∨ ev = .write off n v) (bad : accessOk off n = false) :
    step s = .fault (.busFault off) := by
  rw [step_input s hin]
  rcases access with rfl | rfl
  · exact memRead_fault Config.engines _ bad
  · exact memWrite_fault Config.engines _ bad

/-- Settles O25: both accesses fault exactly when `accessOk` fails (`memRead_fault_iff`, `memWrite_fault_iff`), and so does the
step that serves one. -/
theorem busFaultExactly : Obligations.BusFaultExactly := by
  intro e off n v s
  rw [← accessOk_eq_false_iff]
  exact ⟨memRead_fault_iff e s off n, memWrite_fault_iff e s off n v, raise_busFault s off,
    fun _ _ hin access bad => step_busFault s hin access bad⟩

/-! ### What a write answers (20_memory.md R32) -/

/-- While nothing is pending, the write of a word acts on the register its offset selects. -/
theorem memWrite_word_idle {off : Offset} {n : Nat} {reg : WinReg} (v : Word) (ok : accessOk off n = true)
    (hr : winReg off = reg) (hp : s.pend = none) : memWrite e off n v.toNat s = writeReg e reg v s := by
  rw [memWrite_idle e s ok hp, hr, BitVec.ofNat_toNat, BitVec.setWidth_eq]

/-- Settles O24: an access that is not 32 bits wide and aligned faults; any other is dropped, acts on its register
(`memWrite_word_idle`) or is ignored, by `dropsWhileBusy_winReg_iff`. -/
theorem writesFollowTheRegisterMap : Obligations.WritesFollowTheRegisterMap := by
  intro e off n v s
  refine ⟨fun bad => memWrite_fault e s ((accessOk_eq_false_iff off n).mpr bad), fun wide alignedOff => ?_⟩
  have ok : accessOk off n = true := (accessOk_iff off n).mpr ⟨wide, alignedOff⟩
  refine ⟨fun busy listed => ?_, ?_, ?_, ?_, ?_, fun unlisted => ?_⟩
  · obtain ⟨p, hp⟩ := Option.ne_none_iff_exists'.mp busy
    exact memWrite_busy e s ok ((dropsWhileBusy_winReg_iff off).mpr listed) hp
  · rintro idle rfl
    exact memWrite_word_idle e s v ok winReg_cmd idle
  · rintro idle rfl
    exact memWrite_word_idle e s v ok winReg_crcState idle
  · rintro idle rfl
    exact memWrite_word_idle e s v ok winReg_data idle
  · rintro idle rfl
    exact memWrite_word_idle e s v ok winReg_fxRaw idle
  · exact memWrite_ignored e s ok (dropsWhileBusy_winReg_eq_false unlisted)

/-! ### Read-only and reserved offsets (20_memory.md R37) -/

@[simp] theorem takesDraw_reserved : takesDraw .reserved s = false := rfl

@[simp] theorem readValue_reserved : readValue e .reserved s = 0x00000000#32 := rfl

/-- Settles O27: no such offset holds a register that a write changes (`readOnly_not_written`), and a reserved read takes no draw. -/
theorem readOnlyWritesAreIgnored : Obligations.ReadOnlyWritesAreIgnored := by
  intro e off v s alignedOff
  have ok : accessOk off 4 = true := (accessOk_iff off 4).mpr ⟨rfl, alignedOff⟩
  refine ⟨fun readOnly => ?_, fun above below => ?_⟩
  · exact memWrite_ignored e s ok (dropsWhileBusy_winReg_eq_false (readOnly_not_written readOnly))
  · have reserved := winReg_reserved above below
    rw [memRead_noDraw e s ok (by rw [reserved, takesDraw_reserved]), reserved, readValue_reserved]
    rfl

end Sys2Proof.Machine
end

section
/-! SUPPORT. Proofs about the encoding of the commands (spec/30_encoding.md): which words are legal, what a reserved word does, and
how a legal one is accepted. -/

namespace Sys2Proof.Machine

variable (e : Engines) (s : State)

/-! ### Legal words (30_encoding.md R46) -/

theorem legal_iff (w : Word) : legal e w = true ↔
    rsvOf w = 0#22 ∧
      ((opcOf w = 0x00#8 ∧ argOf w = 0b00#2) ∨ (opcOf w = 0x01#8 ∧ argOf w = 0b00#2) ∨
        (opcOf w = 0x02#8 ∧ e.table = true) ∨ (opcOf w = 0x03#8 ∧ e.serial = true) ∨
        (opcOf w = 0x04#8 ∧ argOf w ≠ 0b11#2) ∨ (opcOf w = 0x05#8 ∧ argOf w = 0b00#2)) := by
  simp [legal, or_assoc]

/-- Each condition of R46 leads the decoder to a command. -/
theorem decodeWord_of_legal {w : Word} (h : legal e w = true) : ∃ i, decodeWord e w = .ok i := by
  obtain ⟨rsv, ⟨opc, arg⟩ | ⟨opc, arg⟩ | ⟨opc, engine⟩ | ⟨opc, engine⟩ | ⟨opc, arg⟩ | ⟨opc, arg⟩⟩ := (legal_iff e w).mp h
  · exact ⟨.nop, by simp [decodeWord, withoutOperand, rsv, opc, arg]⟩
  · exact ⟨.crcInit, by simp [decodeWord, withoutOperand, rsv, opc, arg]⟩
  · exact ⟨.crcUpdT (countOfArg (argOf w)), by simp [decodeWord, rsv, opc, engine]⟩
  · exact ⟨.crcUpdS (countOfArg (argOf w)), by simp [decodeWord, rsv, opc, engine]⟩
  · have format : decodeWord e w = decodeFormat (argOf w) := by simp [decodeWord, rsv, opc]
    rw [format]
    rcases arg_cases (argOf w) with q17 | q21 | q15 | reserved
    · exact ⟨.fxQ17S, by rw [q17]; rfl⟩
    · exact ⟨.fxQ21S, by rw [q21]; rfl⟩
    · exact ⟨.fxQ15U, by rw [q15]; rfl⟩
    · exact absurd reserved arg
  · exact ⟨.errClr, by simp [decodeWord, withoutOperand, rsv, opc, arg]⟩

/-- The command word of every row that `decodeWord_ok` lists meets R46. -/
theorem legal_of_decodeWord {w : Word} {i : Instr} (h : decodeWord e w = .ok i) : legal e w = true := by
  rcases decodeWord_ok h with ⟨rfl, -⟩ | ⟨rfl, -⟩ | ⟨a, engine, rfl, -⟩ | ⟨a, engine, rfl, -⟩ | ⟨rfl, -⟩ | ⟨rfl, -⟩ | ⟨rfl, -⟩ |
    ⟨rfl, -⟩ <;> simp [legal_iff, *]

theorem legal_iff_decodes (w : Word) : legal e w = true ↔ ∃ i, decodeWord e w = .ok i :=
  ⟨decodeWord_of_legal e, fun ⟨_, h⟩ => legal_of_decodeWord e h⟩

/-- Settles O3: R46 by fields (`legal_iff`), the decoder (`legal_iff_decodes`), and the 14 words as the rows of `decodeWord_ok` with
each count. -/
theorem legalWordsAreTheFourteen : Obligations.LegalWordsAreTheFourteen := by
  refine ⟨legal_iff, legal_iff_decodes, fun w => ⟨fun h => ?_, fun listed => ?_⟩⟩
  · obtain ⟨i, decoded⟩ := decodeWord_of_legal _ h
    rcases decodeWord_ok decoded with ⟨rfl, -⟩ | ⟨rfl, -⟩ | ⟨a, -, rfl, -⟩ | ⟨a, -, rfl, -⟩ | ⟨rfl, -⟩ | ⟨rfl, -⟩ | ⟨rfl, -⟩ | ⟨rfl, -⟩
    · decide
    · decide
    · rcases arg_cases a with rfl | rfl | rfl | rfl <;> decide
    · rcases arg_cases a with rfl | rfl | rfl | rfl <;> decide
    · decide
    · decide
    · decide
    · decide
  · fin_cases listed <;> rfl

/-! ### Reserved encodings (30_encoding.md R48) -/

/-- Each clause of R48's list, the last of them that the word is not legal, contradicts every condition of R46. -/
theorem legal_eq_false_of_reserved {w : Word}
    (h : rsvOf w ≠ 0#22 ∨ 0x06 ≤ (opcOf w).toNat ∨ (opcOf w = 0x04#8 ∧ argOf w = 0b11#2) ∨
      (opcOf w ∈ [0x00#8, 0x01#8, 0x05#8] ∧ argOf w ≠ 0b00#2) ∨ (opcOf w = 0x02#8 ∧ e.table = false) ∨
      (opcOf w = 0x03#8 ∧ e.serial = false) ∨ legal e w = false) : legal e w = false := by
  rw [Bool.eq_false_iff]
  intro isLegal
  obtain ⟨rsv, ⟨opc, arg⟩ | ⟨opc, arg⟩ | ⟨opc, engine⟩ | ⟨opc, engine⟩ | ⟨opc, arg⟩ | ⟨opc, arg⟩⟩ := (legal_iff e w).mp isLegal <;>
    simp [*] at h

/-- A word that is not legal sets `ILL` and does nothing else (30_encoding.md R45, 60_exceptions.md R86). -/
theorem accept_not_legal {w : Word} (h : legal e w = false) : accept e w s = .next (s.setStatus s.status.setIll) := by
  rcases accept_cases e s w with ⟨i, decoded, -⟩ | ⟨x, -, illegal⟩
  · rw [legal_of_decodeWord e decoded] at h
    cases h
  · exact illegal

theorem memWrite_cmd_idle (w : Word) (hp : s.pend = none) : memWrite e 0x000#11 4 w.toNat s = accept e w s :=
  memWrite_word_idle e s w (by decide) winReg_cmd hp

/-- Settles O5: none of R48's words is legal (`legal_eq_false_of_reserved`), and such a word is not accepted (`accept_not_legal`). -/
theorem reservedEncodingsAreIllegal : Obligations.ReservedEncodingsAreIllegal := by
  intro e w s idle reserved
  refine ⟨?_, rfl⟩
  rw [memWrite_cmd_idle e s w idle, accept_not_legal e s (legal_eq_false_of_reserved e reserved), raise_illegalCommand]

/-! ### Acceptance (30_encoding.md R45, 70_reset_and_hazards.md R100) -/

/-- The command of a pending record is issued by its acceptance. -/
theorem exec_pendCmd (cmd : PendCmd) : exec cmd.instr s = issue (acceptMulti cmd) s := by
  cases cmd with
  | updT a => rw [PendCmd.instr, exec_crcUpdT, argOfCount_countOfArg]
  | updS a => rw [PendCmd.instr, exec_crcUpdS, argOfCount_countOfArg]
  | q17s => exact exec_fxQ17S s
  | q21s => exact exec_fxQ21S s
  | q15u => exact exec_fxQ15U s

/-- The word of a multi-cycle command carries the opcode and the `ARG` of a pending record (30_encoding.md R47). -/
theorem decodeWord_multi {w : Word} {i : Instr} (h : decodeWord e w = .ok i) (multi : i.isMulti = true) :
    ∃ cmd : PendCmd, cmd.op = opcOf w ∧ cmd.arg = argOf w ∧ cmd.instr = i := by
  rcases decodeWord_ok h with ⟨-, rfl⟩ | ⟨-, rfl⟩ | ⟨a, -, rfl, rfl⟩ | ⟨a, -, rfl, rfl⟩ | ⟨rfl, rfl⟩ | ⟨rfl, rfl⟩ | ⟨rfl, rfl⟩ | ⟨-, rfl⟩
  · cases multi
  · cases multi
  · exact ⟨.updT a, by simp [PendCmd.op], by simp [PendCmd.arg], rfl⟩
  · exact ⟨.updS a, by simp [PendCmd.op], by simp [PendCmd.arg], rfl⟩
  · exact ⟨.q17s, by simp [PendCmd.op], by simp [PendCmd.arg], rfl⟩
  · exact ⟨.q21s, by simp [PendCmd.op], by simp [PendCmd.arg], rfl⟩
  · exact ⟨.q15u, by simp [PendCmd.op], by simp [PendCmd.arg], rfl⟩
  · cases multi

/-- A single-cycle command makes nothing pending and does not write `BUSY`. -/
theorem exec_single {i : Instr} {t : State} (single : i.isMulti = false) (h : exec i s = .next t) :
    t.pend = s.pend ∧ t.status.busy = s.status.busy := by
  rcases exec_cases s h with ⟨_, _, rfl⟩ | ⟨_, ⟨_, rfl⟩ | ⟨_, rfl⟩ | ⟨_, rfl⟩ | ⟨multi, _⟩⟩
  · exact ⟨rfl, rfl⟩
  · exact ⟨rfl, rfl⟩
  · exact ⟨rfl, rfl⟩
  · exact ⟨rfl, rfl⟩
  · rw [single] at multi
    cases multi

/-- Settles O19: a write to `CMD` is `accept` or dropped; `accept` by the three kinds of word (`accept_not_legal`, `exec_single`,
`decodeWord_multi` with `exec_pendCmd`). -/
theorem acceptanceRecordsTheCommand : Obligations.AcceptanceRecordsTheCommand := by
  refine ⟨fun e w s idle => memWrite_cmd_idle e s w idle, fun e w s busy => ⟨?_, rfl⟩, fun e w s idle => ⟨?_, ?_, ?_⟩⟩
  · obtain ⟨p, hp⟩ := Option.ne_none_iff_exists'.mp busy
    exact memWrite_busy e s (by decide) (by decide) hp
  · exact accept_not_legal e s
  · intro i decoded single
    obtain ⟨t, served⟩ := exec_total s i
    obtain ⟨pendSame, busySame⟩ := exec_single s single served
    exact ⟨t, accept_ok e s decoded, served, pendSame.trans idle, busySame⟩
  · intro i decoded multi
    obtain ⟨cmd, op, arg, rfl⟩ := decodeWord_multi e decoded multi
    refine ⟨cmd, op, arg, rfl, ?_⟩
    rw [accept_ok e s decoded, exec_pendCmd, issue_idle s idle]
    rfl

end Sys2Proof.Machine
end

section
/-! SUPPORT. Proofs about the fixed-point conversions (spec/40_fixed_point.md): how a conversion command is issued and completes, and
the sign of the pattern it writes. -/

namespace Sys2Proof.Machine

variable (s : State)

/-! ### Commands while idle and while busy (30_encoding.md R45, 60_exceptions.md R87) -/

/-- Whatever the command, its write while another one is pending is dropped. -/
theorem exec_busy (i : Instr) (busy : s.pend ≠ none) : exec i s = .next (s.setStatus s.status.setBerr) := by
  obtain ⟨p, hp⟩ := Option.ne_none_iff_exists'.mp busy
  obtain ⟨f, served, -⟩ := exec_issue s i
  rw [served, issue_busy s hp]

theorem exec_pendCmd_idle (cmd : PendCmd) (idle : s.pend = none) : exec cmd.instr s = .next (acceptMulti cmd s) := by
  rw [exec_pendCmd, issue_idle s idle]

/-! ### Completion of an accepted conversion (40_fixed_point.md R55 to R57) -/

theorem complete_acceptMulti_q17s : complete (acceptMulti .q17s s) = finish (s.setXo (fxToBinary32 s.xi.toInt 17)) := rfl
theorem complete_acceptMulti_q21s : complete (acceptMulti .q21s s) = finish (s.setXo (fxToBinary32 s.xi.toInt 21)) := rfl
theorem complete_acceptMulti_q15u :
    complete (acceptMulti .q15u s) = finish (s.setXo (fxToBinary32 (Int.ofNat s.xi.toNat) 15)) := rfl

/-! ### The sign of a pattern (40_fixed_point.md R53) -/

theorem binary32_getLsbD_31 (sign : BitVec 1) (e : BitVec 8) (f : BitVec 23) :
    (binary32 sign e f).getLsbD 31 = sign.getLsbD 0 := by
  rw [binary32, BitVec.getLsbD_append, if_neg (by decide), BitVec.getLsbD_append, if_neg (by decide)]

/-- Bit 31 is the sign of the integer, at every scale; zero has the pattern of +0.0. -/
theorem fxToBinary32_getLsbD_31 (v : Int) (n : Nat) : (fxToBinary32 v n).getLsbD 31 = decide (v < 0) := by
  unfold fxToBinary32
  split
  · next zero => simp [zero]
  · rw [binary32_getLsbD_31]
    split <;> simp [*]

/-! ### The three commands -/

/-- Settles O15, by `exec_pendCmd_idle`, `complete_acceptMulti_q17s` and `exec_busy`. -/
theorem fxQ17SConverts : Obligations.FxQ17SConverts := by
  refine ⟨by decide, fun s => ⟨fun idle => ?_, exec_busy s .fxQ17S⟩, by decide⟩
  exact ⟨acceptMulti .q17s s, exec_pendCmd_idle s .q17s idle, rfl, complete_acceptMulti_q17s s⟩

/-- Settles O16, by `exec_pendCmd_idle`, `complete_acceptMulti_q21s` and `exec_busy`. -/
theorem fxQ21SConverts : Obligations.FxQ21SConverts := by
  refine ⟨by decide, fun s => ⟨fun idle => ?_, exec_busy s .fxQ21S⟩, by decide⟩
  exact ⟨acceptMulti .q21s s, exec_pendCmd_idle s .q21s idle, rfl, complete_acceptMulti_q21s s⟩

/-- Settles O17: as for the signed formats, and the integer converted is a natural number, so `fxToBinary32_getLsbD_31` gives a
sign bit of 0. -/
theorem fxQ15UConverts : Obligations.FxQ15UConverts := by
  refine ⟨by decide, fun s => ⟨fun idle => ?_, exec_busy s .fxQ15U⟩, by decide⟩
  refine ⟨acceptMulti .q15u s, exec_pendCmd_idle s .q15u idle, rfl, complete_acceptMulti_q15u s, ?_⟩
  have notNegative : ¬ Int.ofNat s.xi.toNat < 0 := Int.not_lt.mpr (Int.natCast_nonneg _)
  rw [complete_acceptMulti_q15u, finish_xo, State.setXo_xo, fxToBinary32_getLsbD_31, decide_eq_false notNegative]

end Sys2Proof.Machine
end

section
/-! SUPPORT. Proofs about the CRC-32 generator (spec/41_crc32.md): the step is linear over XOR, the two engines are the same
function, what a message and a word absorb to, and how the three CRC commands are issued and complete. -/

namespace Sys2Proof.Machine

/-! ### The step is linear, and on low zero bits it is a shift (41_crc32.md R63, R67 steps 1 and 3) -/

theorem crcStep_of_bit {r : Word} (h : r.getLsbD 0 = true) : crcStep r = (r >>> 1) ^^^ 0xEDB88320#32 := if_pos h

theorem crcStep_of_no_bit {r : Word} (h : r.getLsbD 0 = false) : crcStep r = r >>> 1 :=
  if_neg (Bool.eq_false_iff.mp h)

theorem crcStep_xor (x y : Word) : crcStep (x ^^^ y) = crcStep x ^^^ crcStep y := by
  have bit : (x ^^^ y).getLsbD 0 = (x.getLsbD 0 ^^ y.getLsbD 0) := BitVec.getLsbD_xor
  have shift : (x ^^^ y) >>> 1 = x >>> 1 ^^^ y >>> 1 := BitVec.ushiftRight_xor_distrib x y 1
  cases hx : x.getLsbD 0 <;> cases hy : y.getLsbD 0 <;> rw [hx, hy] at bit
  · rw [crcStep_of_no_bit hx, crcStep_of_no_bit hy, crcStep_of_no_bit bit, shift]
  · rw [crcStep_of_no_bit hx, crcStep_of_bit hy, crcStep_of_bit bit, shift, BitVec.xor_assoc]
  · rw [crcStep_of_bit hx, crcStep_of_no_bit hy, crcStep_of_bit bit, shift]
    ac_rfl
  · rw [crcStep_of_bit hx, crcStep_of_bit hy, crcStep_of_no_bit bit, shift]
    calc x >>> 1 ^^^ y >>> 1
        = x >>> 1 ^^^ y >>> 1 ^^^ (0xEDB88320#32 ^^^ 0xEDB88320#32) := by rw [BitVec.xor_self, BitVec.xor_zero]
      _ = (x >>> 1 ^^^ 0xEDB88320#32) ^^^ (y >>> 1 ^^^ 0xEDB88320#32) := by ac_rfl

theorem crcSteps_xor (k : Nat) (x y : Word) : crcSteps k (x ^^^ y) = crcSteps k x ^^^ crcSteps k y := by
  induction k generalizing x y with
  | zero => rfl
  | succ k ih => rw [crcSteps, crcStep_xor, ih]; rfl

theorem crcSteps_add (j k : Nat) (x : Word) : crcSteps (j + k) x = crcSteps k (crcSteps j x) := by
  induction j generalizing x with
  | zero => rw [Nat.zero_add]; rfl
  | succ j ih => rw [Nat.succ_add]; exact ih (crcStep x)

/-- Where the `k` bits that `k` steps test are 0, no step applies the polynomial. -/
theorem crcSteps_of_low_zero {k : Nat} {x : Word} (low : ∀ i < k, x.getLsbD i = false) : crcSteps k x = x >>> k := by
  induction k generalizing x with
  | zero => exact (BitVec.ushiftRight_zero x).symm
  | succ k ih =>
    have shifted : ∀ i < k, (x >>> 1).getLsbD i = false := fun i hi => by
      rw [BitVec.getLsbD_ushiftRight]
      exact low (1 + i) (by omega)
    rw [crcSteps, crcStep_of_no_bit (low 0 k.succ_pos), ih shifted, ← BitVec.shiftRight_add, Nat.add_comm]

/-- `k` steps bring a value back down that was shifted up by `k` without losing a bit. -/
theorem crcSteps_shiftLeft {k : Nat} {x : Word} (fits : ∀ i, 32 ≤ k + i → x.getLsbD i = false) :
    crcSteps k (x <<< k) = x := by
  have low : ∀ i < k, (x <<< k).getLsbD i = false := fun i hi => by simp [hi]
  rw [crcSteps_of_low_zero low]
  apply BitVec.eq_of_getLsbD_eq
  intro i _
  rw [BitVec.getLsbD_ushiftRight, BitVec.getLsbD_shiftLeft, Nat.add_sub_cancel_left]
  by_cases top : 32 ≤ k + i
  · simp [fits i top]
  · simp [Nat.lt_of_not_le top]

/-! ### The two engines (41_crc32.md R65 to R67) -/

/-- A word is its bits 31:8 and its low byte (R67 step 2). -/
theorem word_eq_high_xor_low (x : Word) : x = ((x >>> 8) <<< 8) ^^^ (x.extractLsb' 0 8).setWidth 32 := by
  apply BitVec.eq_of_getLsbD_eq
  intro i hi
  by_cases low : i < 8
  · simp [low, hi]
  · simp [low, hi, show 8 + (i - 8) = i by omega]

/-- Eight steps look the low byte up in the table and shift the rest (R67 step 5). -/
theorem crcSteps_eight (x : Word) : crcSteps 8 x = tableEntry (x.extractLsb' 0 8) ^^^ (x >>> 8) := by
  have fits : ∀ i, 32 ≤ 8 + i → (x >>> 8).getLsbD i = false := fun i hi => by
    rw [BitVec.getLsbD_ushiftRight, BitVec.getLsbD_of_ge x _ hi]
  calc crcSteps 8 x
      = crcSteps 8 (((x >>> 8) <<< 8) ^^^ (x.extractLsb' 0 8).setWidth 32) := congrArg _ (word_eq_high_xor_low x)
    _ = tableEntry (x.extractLsb' 0 8) ^^^ (x >>> 8) := by
      rw [crcSteps_xor, crcSteps_shiftLeft fits, BitVec.xor_comm, tableEntry]

/-- A byte does not reach bits 31:8. -/
theorem byte_ushiftRight_eight (b : Byte) : b.setWidth 32 >>> 8 = 0#32 := by
  apply BitVec.eq_of_getLsbD_eq
  intro i hi
  simp

theorem crcByteT_eq_crcByteS (r : Word) (b : Byte) : crcByteT r b = crcByteS r b := by
  rw [crcByteT, crcByteS, crcSteps_eight, BitVec.ushiftRight_xor_distrib, byte_ushiftRight_eight, BitVec.xor_zero]

/-- Settles O46: eight steps of the XORed word are a table look-up and a shift (`crcSteps_eight`), by linearity. -/
theorem enginesAreEquivalent : Obligations.EnginesAreEquivalent := crcByteT_eq_crcByteS

/-! ### Messages (41_crc32.md R68, R74) -/

theorem crcFold_eq_foldl (r : Word) (m : List Byte) : crcFold r m = m.foldl crcByteS r := by
  induction m generalizing r with
  | nil => rfl
  | cons b m ih => exact ih (crcByteS r b)

theorem crcFoldT_eq_crcFold (r : Word) (m : List Byte) : crcFoldT r m = crcFold r m := by
  induction m generalizing r with
  | nil => rfl
  | cons b m ih => rw [crcFoldT, ih, crcByteT_eq_crcByteS, crcFold]

theorem crcFold_append (r : Word) (a b : List Byte) : crcFold r (a ++ b) = crcFold (crcFold r a) b := by
  simp only [crcFold_eq_foldl, List.foldl_append]

/-- Settles O48: both recursions are left folds, of one byte function (`crcByteT_eq_crcByteS`). -/
theorem crc32OfAMessage : Obligations.Crc32OfAMessage := by
  have sameFunction : crcByteT = crcByteS := funext₂ crcByteT_eq_crcByteS
  refine ⟨fun m => ?_, by decide⟩
  rw [sameFunction, and_self, ← crcFold_eq_foldl]
  rfl

/-- The register behind a known CRC (R74). -/
theorem crc32_xor_out (m : List Byte) : crc32 m ^^^ 0xFFFFFFFF#32 = crcFold crcInitValue m := by
  rw [crc32, crcXorOut, BitVec.xor_assoc, BitVec.xor_self, BitVec.xor_zero]

theorem memWrite_crcState_idle (e : Engines) (s : State) (v : Word) (idle : s.pend = none) :
    memWrite e 0x008#11 4 v.toNat s = .next (s.setR v) :=
  memWrite_word_idle e s v (by decide) winReg_crcState idle

theorem exec_crcInit_idle (s : State) (idle : s.pend = none) : exec .crcInit s = .next (s.setR 0xFFFFFFFF#32) := by
  rw [exec_crcInit, issue_idle s idle]
  rfl

/-- Settles O50, by `memWrite_crcState_idle`, `crcFold_append` and `crc32_xor_out`. -/
theorem messagesSuspendAndResume : Obligations.MessagesSuspendAndResume := by
  refine ⟨fun e v s idle => memWrite_crcState_idle e s v idle, crcFold_append, fun e s idle => ?_, fun a b => ?_⟩
  · rw [exec_crcInit_idle s idle]
    exact memWrite_crcState_idle e s 0xFFFFFFFF#32 idle
  · rw [crc32_xor_out, ← crcFold_append]
    rfl

/-! ### A word absorbed lane by lane, and the residue (41_crc32.md R76) -/

/-- Absorbing a byte after `k` steps is absorbing it at bit `k` before them: the `k` steps only shift it down. -/
theorem crcByteS_crcSteps {k : Nat} (hk : k ≤ 24) (r : Word) (b : Byte) :
    crcByteS (crcSteps k r) b = crcSteps (k + 8) (r ^^^ b.setWidth 32 <<< k) := by
  have fits : ∀ i, 32 ≤ k + i → (b.setWidth 32).getLsbD i = false := fun i hi => by
    rw [BitVec.getLsbD_setWidth, BitVec.getLsbD_of_ge b i (by omega), Bool.and_false]
  rw [crcSteps_add, crcSteps_xor, crcSteps_shiftLeft fits, crcByteS]

theorem lane_getLsbD (w : Word) (k : Nat) {i : Nat} (hi : i < 32) :
    ((byteOf w k).setWidth 32 <<< (8 * k)).getLsbD i = (decide (i / 8 = k) && w.getLsbD i) := by
  rw [BitVec.getLsbD_shiftLeft, BitVec.getLsbD_setWidth, byteOf, BitVec.getLsbD_extractLsb']
  by_cases inLane : i / 8 = k
  · have above : ¬ i < 8 * k := by omega
    have below : i - 8 * k < 8 := by omega
    have position : 8 * k + (i - 8 * k) = i := by omega
    simp [inLane, hi, above, below, position, Nat.sub_lt_of_lt hi]
  · by_cases under : i < 8 * k
    · simp [inLane, under]
    · have beyond : ¬ i - 8 * k < 8 := by omega
      simp [inLane, beyond]

/-- A word is its four byte lanes (20_memory.md R33). -/
theorem word_eq_xor_lanes (w : Word) :
    w = (byteOf w 0).setWidth 32 <<< (8 * 0) ^^^ (byteOf w 1).setWidth 32 <<< (8 * 1) ^^^
      (byteOf w 2).setWidth 32 <<< (8 * 2) ^^^ (byteOf w 3).setWidth 32 <<< (8 * 3) := by
  apply BitVec.eq_of_getLsbD_eq
  intro i hi
  simp only [BitVec.getLsbD_xor, lane_getLsbD w _ hi]
  have lane : i / 8 = 0 ∨ i / 8 = 1 ∨ i / 8 = 2 ∨ i / 8 = 3 := by omega
  rcases lane with lane | lane | lane | lane <;> simp [lane]

/-- Absorbing the four lanes of a word is XORing the word and 32 steps. -/
theorem crcFold_bytesOfWord (r w : Word) : crcFold r (bytesOfWord w) = crcSteps 32 (r ^^^ w) := by
  calc crcFold r (bytesOfWord w)
      = crcByteS (crcByteS (crcByteS (crcByteS (crcSteps 0 r) (byteOf w 0)) (byteOf w 1)) (byteOf w 2)) (byteOf w 3) := rfl
    _ = crcSteps 32 (r ^^^ (byteOf w 0).setWidth 32 <<< (8 * 0) ^^^ (byteOf w 1).setWidth 32 <<< (8 * 1) ^^^
          (byteOf w 2).setWidth 32 <<< (8 * 2) ^^^ (byteOf w 3).setWidth 32 <<< (8 * 3)) := by
      simp (disch := decide) only [crcByteS_crcSteps, Nat.zero_add, Nat.reduceAdd, Nat.reduceMul]
    _ = crcSteps 32 (r ^^^ w) := by rw [BitVec.xor_assoc r, BitVec.xor_assoc r, BitVec.xor_assoc r, ← word_eq_xor_lanes]

/-- Settles O52: absorbing its own CRC leaves the register at 32 steps from the final XOR, whatever the message. -/
theorem residueIsConstant : Obligations.ResidueIsConstant := by
  intro m
  refine ⟨?_, by decide⟩
  calc crcFold crcInitValue (m ++ bytesOfWord (crc32 m))
      = crcSteps 32 (crcFold crcInitValue m ^^^ crc32 m) := by rw [crcFold_append, crcFold_bytesOfWord]
    _ = crcSteps 32 0xFFFFFFFF#32 := by
      rw [← crc32_xor_out, BitVec.xor_comm (crc32 m), BitVec.xor_assoc, BitVec.xor_self, BitVec.xor_zero]
    _ = 0xDEBB20E3#32 := by decide +kernel

/-! ### The table (41_crc32.md R65, R77, R78) -/

theorem tableEntry_eq_crcByteS (n : Byte) : tableEntry n = crcByteS 0#32 n := by
  rw [tableEntry, crcByteS, BitVec.zero_xor]

theorem romListing_length : romListing.length = 256 := by
  rw [romListing_eq_map, List.length_map, List.length_range]

theorem toNat_tableOffset (n : BitVec 8) : (BitVec.ofNat 11 (0x400 + 4 * n.toNat)).toNat = 0x400 + 4 * n.toNat := by
  have hn : n.toNat < 256 := n.isLt
  rw [BitVec.toNat_ofNat]
  omega

theorem winReg_table (n : BitVec 8) : winReg (BitVec.ofNat 11 (0x400 + 4 * n.toNat)) = .table n := by
  have notNamed (k : Offset) (hk : k.toNat < 0x400) : BitVec.ofNat 11 (0x400 + 4 * n.toNat) ≠ k := by
    rintro rfl
    rw [toNat_tableOffset] at hk
    omega
  have entry : (0x400 + 4 * n.toNat - 0x400) >>> 2 = n.toNat := by
    rw [Nat.shiftRight_eq_div_pow]
    omega
  simp (disch := decide) only [winReg, notNamed, if_false]
  rw [toNat_tableOffset, if_pos (Nat.le_add_right _ _), entry, BitVec.ofNat_toNat, BitVec.setWidth_eq]

theorem accessOk_table (n : BitVec 8) : accessOk (BitVec.ofNat 11 (0x400 + 4 * n.toNat)) 4 = true := by
  rw [accessOk_iff]
  refine ⟨rfl, BitVec.eq_of_toNat_eq ?_⟩
  rw [BitVec.extractLsb'_toNat, toNat_tableOffset, Nat.shiftRight_zero, BitVec.toNat_ofNat]
  omega

/-- Settles O31: the listing entry by entry (`romListing_getElem?`), and a read at a table's offset takes no draw. -/
theorem tableReadsTheListing : Obligations.TableReadsTheListing := by
  refine ⟨romListing_length, fun n => ⟨romListing_getElem? n, tableEntry_eq_crcByteS n⟩, fun e n s => ?_⟩
  rw [memRead_noDraw e s (accessOk_table n) (by rw [winReg_table]; rfl), winReg_table, readValue_table]
  rfl

/-! ### The three commands (41_crc32.md R69 to R71) -/

/-- A command without operand has one legal word (30_encoding.md R46): any other with its opcode sets `RSV` or `ARG`. -/
theorem legal_eq_false_of_withoutOperand (e : Engines) {w : Word} (opc : opcOf w ∈ [0x00#8, 0x01#8, 0x05#8])
    (other : w ≠ commandWord (opcOf w) 0b00#2) : legal e w = false := by
  by_cases rsv : rsvOf w = 0#22
  · have arg : argOf w ≠ 0b00#2 := fun zero => other (zero ▸ commandWord_of_fields rsv)
    exact legal_eq_false_of_reserved e (.inr (.inr (.inr (.inl ⟨opc, arg⟩))))
  · exact legal_eq_false_of_reserved e (.inl rsv)

/-- Settles O12: an idle write sets `R` (`exec_crcInit_idle`), a busy one is dropped (`exec_busy`), and the opcode has one legal
word (`legal_eq_false_of_withoutOperand`). -/
theorem crcInitStartsAMessage : Obligations.CrcInitStartsAMessage := by
  refine ⟨by decide, fun s => ⟨fun idle => ⟨exec_crcInit_idle s idle, exec_crcInit_idle _ idle, fun e => ?_⟩,
    exec_busy s .crcInit, fun e w _ opc notInit => ?_⟩⟩
  · exact (readValue_crcResult_idle e (s.setR 0xFFFFFFFF#32) idle).trans BitVec.xor_self
  · have opcInit : opcOf w = 0x01#8 := opc
    exact accept_not_legal e s (legal_eq_false_of_withoutOperand e (by simp [opcInit]) (opcInit ▸ notInit))

/-- A command consumes the first `nb` of the four lanes (20_memory.md R34). -/
theorem consumedBytes_eq_take (d : Word) {nb : Nat} (h : nb ≤ 4) : consumedBytes d nb = (bytesOfWord d).take nb := by
  have lanes : bytesOfWord d = (List.range 4).map (byteOf d) := rfl
  rw [lanes, ← List.map_take, List.take_range, Nat.min_eq_left h, consumedBytes]

/-- The bytes that a count from 1 to 4 consumes, through the `ARG` that the pending record holds. -/
theorem consumedBytes_argOfCount (d : Word) {nb : Nat} (least : 1 ≤ nb) (most : nb ≤ 4) :
    consumedBytes d (countOfArg (argOfCount nb)) = (bytesOfWord d).take nb := by
  rw [countOfArg_argOfCount (by simp [byteCountOk, least, most]), consumedBytes_eq_take d most]

theorem complete_acceptMulti_updT (s : State) {nb : Nat} (least : 1 ≤ nb) (most : nb ≤ 4) :
    complete (acceptMulti (.updT (argOfCount nb)) s) = finish (s.setR (crcFoldT s.r ((bytesOfWord s.d).take nb))) := by
  rw [← consumedBytes_argOfCount s.d least most]
  rfl

theorem complete_acceptMulti_updS (s : State) {nb : Nat} (least : 1 ≤ nb) (most : nb ≤ 4) :
    complete (acceptMulti (.updS (argOfCount nb)) s) = finish (s.setR (crcFold s.r ((bytesOfWord s.d).take nb))) := by
  rw [← consumedBytes_argOfCount s.d least most]
  rfl

theorem exec_crcUpdT_idle (s : State) (nb : Nat) (idle : s.pend = none) :
    exec (.crcUpdT nb) s = .next (acceptMulti (.updT (argOfCount nb)) s) := by
  rw [exec_crcUpdT, issue_idle s idle]

theorem exec_crcUpdS_idle (s : State) (nb : Nat) (idle : s.pend = none) :
    exec (.crcUpdS nb) s = .next (acceptMulti (.updS (argOfCount nb)) s) := by
  rw [exec_crcUpdS, issue_idle s idle]

/-- From a zero register, zero bytes leave it zero. -/
theorem crcFoldT_zeros (k : Nat) : crcFoldT 0#32 (List.replicate k 0#8) = 0#32 := by
  have zeroByte : crcByteT 0#32 0#8 = 0#32 := by decide
  induction k with
  | zero => rfl
  | succ k ih => rw [List.replicate_succ, crcFoldT, zeroByte, ih]

/-- Settles O13: acceptance records the command (`exec_crcUpdT_idle`), completion absorbs the first `nb` lanes
(`complete_acceptMulti_updT`), and its reserved words are not legal. -/
theorem crcUpdTAbsorbsBytes : Obligations.CrcUpdTAbsorbsBytes := by
  refine ⟨by decide, fun nb s least most => ⟨fun idle => ?_, exec_busy s (.crcUpdT nb), ?_⟩, fun e w s _ opc reserved => ?_,
    by decide +kernel⟩
  · exact ⟨_, exec_crcUpdT_idle s nb idle, rfl, complete_acceptMulti_updT s least most⟩
  · have zeros : bytesOfWord 0#32 = List.replicate 4 0#8 := by decide
    rw [zeros, List.take_replicate, crcFoldT_zeros]
  · refine accept_not_legal e s (legal_eq_false_of_reserved e ?_)
    rcases reserved with absent | rsv
    · exact .inr (.inr (.inr (.inr (.inl ⟨opc, absent⟩))))
    · exact .inl rsv

/-- Settles O14: as for `CRC.UPD.T`, and the two completions agree since the two folds do (`crcFoldT_eq_crcFold`). -/
theorem crcUpdSAbsorbsBytes : Obligations.CrcUpdSAbsorbsBytes := by
  refine ⟨by decide, fun nb s least most => ⟨fun idle => ?_, exec_busy s (.crcUpdS nb)⟩, fun e w s _ opc reserved => ?_,
    by decide⟩
  · refine ⟨_, exec_crcUpdS_idle s nb idle, rfl, complete_acceptMulti_updS s least most, _, exec_crcUpdT_idle s nb idle, ?_⟩
    rw [complete_acceptMulti_updT s least most, complete_acceptMulti_updS s least most, crcFoldT_eq_crcFold]
  · refine accept_not_legal e s (legal_eq_false_of_reserved e ?_)
    rcases reserved with absent | rsv
    · exact .inr (.inr (.inr (.inr (.inr (.inl ⟨opc, absent⟩)))))
    · exact .inl rsv

/-- Settles O45, by the two branches of the step; a byte is eight steps by definition. -/
theorem crcStepAndByteExamples : Obligations.CrcStepAndByteExamples :=
  ⟨fun _ => ⟨crcStep_of_bit, crcStep_of_no_bit⟩, fun _ _ => rfl, by decide⟩

end Sys2Proof.Machine
end

section
/-! SUPPORT. Proofs about the control commands (spec/42_control.md): their idle effects, and what every other word with their
opcodes does. -/

namespace Sys2Proof.Machine

variable (s : State)

theorem exec_nop_idle (idle : s.pend = none) : exec .nop s = .next s := by
  rw [exec_nop, issue_idle s idle]

theorem exec_errClr_idle (idle : s.pend = none) : exec .errClr s = .next (s.setStatus s.status.clearErrors) := by
  rw [exec_errClr, issue_idle s idle, recover]

/-- A word with the opcode of a command without operand that is not the command's one word is illegal (30_encoding.md R48). -/
theorem accept_other_word (e : Engines) {w : Word} {opc : BitVec 8} (listed : opc ∈ [0x00#8, 0x01#8, 0x05#8])
    (opcode : opcOf w = opc) (other : w ≠ commandWord opc 0b00#2) :
    accept e w s = .next (s.setStatus s.status.setIll) := by
  subst opcode
  exact accept_not_legal e s (legal_eq_false_of_withoutOperand e listed other)

/-- Settles O10: an idle `NOP` answers the state it was given (`exec_nop_idle`), a busy one is dropped (`exec_busy`), and the
opcode has one legal word (`accept_other_word`). -/
theorem nopDoesNothing : Obligations.NopDoesNothing :=
  ⟨by decide, fun s => ⟨exec_nop_idle s, exec_busy s .nop, fun e _ _ opcode other =>
    accept_other_word s e (by decide) opcode other⟩⟩

/-- Settles O11: an idle `ERR.CLR` clears both sticky flags (`exec_errClr_idle`), a busy one is dropped without the clear
(`exec_busy`), and the opcode has one legal word (`accept_other_word`). -/
theorem errClrClearsTheStickyFlags : Obligations.ErrClrClearsTheStickyFlags :=
  ⟨by decide, fun s => ⟨exec_errClr_idle s, exec_busy s .errClr, fun e _ _ opcode other =>
    accept_other_word s e (by decide) opcode other⟩⟩

end Sys2Proof.Machine
end

section
/-! SUPPORT. Proofs about the error events (spec/60_exceptions.md): a write dropped while a command is pending does not reach that
command's completion, and which steps can clear a sticky flag. -/

namespace Sys2Proof.Machine

variable (e : Engines) (s : State)

/-! ### A dropped write and the completion (60_exceptions.md R87, 70_reset_and_hazards.md R104) -/

/-- Raising `BERR` before a completion is raising it after: no completion reads the flag or writes it. -/
theorem complete_setBerr :
    complete (s.setStatus s.status.setBerr) = (complete s).setStatus (complete s).status.setBerr := by
  rcases s with ⟨r, d, xi, xo, status, _ | ⟨cmd, r0, d0, x0⟩, port, draws, reads, inputs⟩
  · rfl
  · cases cmd <;> rfl

/-- Settles O26: a write at one of the four offsets of R32 is dropped (`memWrite_busy`) and does not change the completion
(`complete_setBerr`); at any other aligned offset it is ignored. -/
theorem busyWritesAreDropped : Obligations.BusyWritesAreDropped := by
  intro e off v s busy
  refine ⟨fun listed => ?_, fun unlisted alignedOff => ?_⟩
  · obtain ⟨p, hp⟩ := Option.ne_none_iff_exists'.mp busy
    have ok : accessOk off 4 = true := by fin_cases listed <;> decide
    have drops : (winReg off).dropsWhileBusy = true := (dropsWhileBusy_winReg_iff off).mpr listed
    exact ⟨_, memWrite_busy e s ok drops hp, rfl, complete_setBerr s⟩
  · have ok : accessOk off 4 = true := (accessOk_iff off 4).mpr ⟨rfl, alignedOff⟩
    exact memWrite_ignored e s ok (dropsWhileBusy_winReg_eq_false unlisted)

/-! ### Flags that stay set (60_exceptions.md R88) -/

/-- Every sticky flag that `st` has set is set in `st'`. -/
def KeepsErrorFlags (st st' : Status) : Prop :=
  (st.ill = true → st'.ill = true) ∧ (st.berr = true → st'.berr = true)

theorem KeepsErrorFlags.of_eq {st st' : Status} (ill : st'.ill = st.ill) (berr : st'.berr = st.berr) :
    KeepsErrorFlags st st' :=
  ⟨fun h => ill.trans h, fun h => berr.trans h⟩

theorem keepsErrorFlags_setIll (st : Status) : KeepsErrorFlags st st.setIll := ⟨fun _ => rfl, id⟩
theorem keepsErrorFlags_setBerr (st : Status) : KeepsErrorFlags st st.setBerr := ⟨id, fun _ => rfl⟩

/-- A step that keeps the flags clears neither. -/
theorem KeepsErrorFlags.not_cleared {st st' : Status} (kept : KeepsErrorFlags st st') :
    ¬ ((st.ill = true ∧ st'.ill = false) ∨ (st.berr = true ∧ st'.berr = false)) := by
  obtain ⟨illKept, berrKept⟩ := kept
  rintro (⟨set, cleared⟩ | ⟨set, cleared⟩)
  · exact Bool.false_ne_true (cleared.symm.trans (illKept set))
  · exact Bool.false_ne_true (cleared.symm.trans (berrKept set))

theorem raise_keepsErrorFlags (ev : ErrorEvent) : KeepsErrorFlags s.status (raise ev s).status := by
  cases ev with
  | busFault off => exact .of_eq rfl rfl
  | illegalCommand w => exact keepsErrorFlags_setIll s.status
  | busyWrite off => exact keepsErrorFlags_setBerr s.status

/-- Of all commands only an `ERR.CLR` that is not dropped can clear a flag (42_control.md R81). -/
theorem exec_keepsErrorFlags {i : Instr} {t : State} (h : exec i s = .next t) :
    KeepsErrorFlags s.status t.status ∨ (s.pend = none ∧ i = .errClr) := by
  rcases exec_cases s h with ⟨_, _, rfl⟩ | ⟨idle, ⟨_, rfl⟩ | ⟨_, rfl⟩ | ⟨errClr, _⟩ | ⟨_, c, rfl⟩⟩
  · exact .inl (keepsErrorFlags_setBerr s.status)
  · exact .inl (.of_eq rfl rfl)
  · exact .inl (.of_eq rfl rfl)
  · exact .inr ⟨idle, errClr⟩
  · exact .inl (.of_eq rfl rfl)

/-- `ERR.CLR` has one word (30_encoding.md R47). -/
theorem eq_encode_errClr {w : Word} (h : decodeWord e w = .ok .errClr) : w = encode .errClr := by
  simpa [encode] using decodeWord_ok h

theorem accept_keepsErrorFlags {w : Word} {t : State} (h : accept e w s = .next t) :
    KeepsErrorFlags s.status t.status ∨ (s.pend = none ∧ w = encode .errClr) := by
  rcases accept_cases e s w with ⟨i, decoded, legalWord⟩ | ⟨_, _, illegalWord⟩
  · rcases exec_keepsErrorFlags s (legalWord.symm.trans h) with kept | ⟨idle, rfl⟩
    · exact .inl kept
    · exact .inr ⟨idle, eq_encode_errClr e decoded⟩
  · cases illegalWord.symm.trans h
    exact .inl (keepsErrorFlags_setIll s.status)

/-- `CMD` stands at offset 0 and nowhere else (20_memory.md R29). -/
theorem eq_zero_of_winReg_cmd {off : Offset} (h : winReg off = .cmd) : off = 0x000#11 := by
  by_contra other
  unfold winReg at h
  split_ifs at h

/-- The only write that can clear a flag is `ERR.CLR` written to an idle block's `CMD`. -/
theorem memWrite_keepsErrorFlags {off : Offset} {n v : Nat} {t : State} (h : memWrite e off n v s = .next t) :
    KeepsErrorFlags s.status t.status ∨
      (s.pend = none ∧ off = 0x000#11 ∧ n = 4 ∧ BitVec.ofNat 32 v = encode .errClr) := by
  obtain ⟨ok, outcome⟩ := memWrite_next e s h
  rcases outcome with ⟨_, _, _, rfl⟩ | ⟨_, rfl⟩ | ⟨_, atCmd, accepted⟩ | ⟨_, _, rfl⟩ | ⟨_, _, rfl⟩ | ⟨_, _, rfl⟩
  · exact .inl (keepsErrorFlags_setBerr s.status)
  · exact .inl (.of_eq rfl rfl)
  · obtain ⟨wide, _⟩ := (accessOk_iff off n).mp ok
    exact (accept_keepsErrorFlags e s accepted).imp_right fun ⟨idle, errClr⟩ =>
      ⟨idle, eq_zero_of_winReg_cmd atCmd, wide, errClr⟩
  · exact .inl (.of_eq rfl rfl)
  · exact .inl (.of_eq rfl rfl)
  · exact .inl (.of_eq rfl rfl)

theorem complete_keepsErrorFlags : KeepsErrorFlags s.status (complete s).status := by
  obtain ⟨-, -, ill, berr, -⟩ := complete_frame s
  exact .of_eq ill berr

/-- Of the four kinds of event only reset and the write of `ERR.CLR` can clear a flag. -/
theorem serve_keepsErrorFlags {ev : Event} {t : State} (h : serve e ev s = .next t) :
    KeepsErrorFlags s.status t.status ∨ ev = .reset ∨
      ∃ v, s.pend = none ∧ ev = .write 0x000#11 4 v ∧ BitVec.ofNat 32 v = encode .errClr := by
  rcases serve_next e s h with ⟨off, _, _, _, rfl⟩ | ⟨off, n, v, rfl, written⟩ | ⟨_, rfl⟩ | ⟨hev, _⟩
  · obtain ⟨-, -, -, -, status, -⟩ := recordRead_frame e s off
    exact .inl (.of_eq (congrArg Status.ill status) (congrArg Status.berr status))
  · rcases memWrite_keepsErrorFlags e s written with kept | ⟨idle, rfl, rfl, errClr⟩
    · exact .inl kept
    · exact .inr (.inr ⟨v, idle, rfl, errClr⟩)
  · exact .inl (complete_keepsErrorFlags s)
  · exact .inr (.inl hev)

/-- A step keeps the flags, or it serves a reset or an `ERR.CLR` that is accepted. -/
theorem step_keepsErrorFlags {t : State} (h : step s = .next t) :
    KeepsErrorFlags s.status t.status ∨ (∃ rest, s.inputs = .reset :: rest) ∨
      ∃ v rest, s.pend = none ∧ s.inputs = .write 0x000#11 4 v :: rest ∧ BitVec.ofNat 32 v = encode .errClr := by
  rcases step_next s h with ⟨_, rfl⟩ | ⟨ev, rest, hin, served⟩
  · exact .inl (complete_keepsErrorFlags s)
  · rcases serve_keepsErrorFlags Config.engines (s.setInputs rest) served with kept | rfl | ⟨v, idle, rfl, errClr⟩
    · exact .inl kept
    · exact .inr (.inl ⟨rest, hin⟩)
    · exact .inr (.inr ⟨v, rest, idle, hin, errClr⟩)

/-- Settles O37: a step that clears a flag is not one that keeps both (`step_keepsErrorFlags`), and no event clears one
(`raise_keepsErrorFlags`). -/
theorem errorFlagsAreSticky : Obligations.ErrorFlagsAreSticky := by
  refine ⟨fun s t h cleared => ?_, fun ev s => raise_keepsErrorFlags s ev, fun w off s => ⟨rfl, rfl⟩⟩
  exact (step_keepsErrorFlags s h).resolve_left fun kept => kept.not_cleared cleared

end Sys2Proof.Machine
end

section
/-! SUPPORT. Proofs about the command words (spec/30_encoding.md, 20_memory.md section 3): byte lanes, the decoder and the encoder as
inverses, the rows of the opcode map, and the assembler. -/

namespace Sys2Proof.Machine

/-! ### Byte lanes (20_memory.md R33, R34) -/

/-- Which byte holds each bit of a word. -/
theorem wordOfBytes_getLsbD (b0 b1 b2 b3 : Byte) (i : Nat) : (wordOfBytes b0 b1 b2 b3).getLsbD i =
    if i < 8 then b0.getLsbD i else if i - 8 < 8 then b1.getLsbD (i - 8) else if i - 16 < 8 then b2.getLsbD (i - 16)
    else b3.getLsbD (i - 24) := by
  rw [wordOfBytes, BitVec.getLsbD_append, BitVec.getLsbD_append, BitVec.getLsbD_append, Nat.sub_sub i 8 8,
    Nat.sub_sub i (8 + 8) 8]

/-- The word of the lanes of a word is the word. -/
theorem wordOfBytes_lanes (w : Word) : wordOfBytes (byteOf w 0) (byteOf w 1) (byteOf w 2) (byteOf w 3) = w := by
  refine BitVec.eq_of_getLsbD_eq fun i hi => ?_
  simp only [wordOfBytes_getLsbD, byteOf, BitVec.getLsbD_extractLsb']
  split_ifs
  · rw [decide_eq_true (by omega), Bool.true_and, show 8 * 0 + i = i by omega]
  · rw [decide_eq_true (by omega), Bool.true_and, show 8 * 1 + (i - 8) = i by omega]
  · rw [decide_eq_true (by omega), Bool.true_and, show 8 * 2 + (i - 16) = i by omega]
  · rw [decide_eq_true (by omega), Bool.true_and, show 8 * 3 + (i - 24) = i by omega]

theorem bytesOfWord_wordOfBytes (b0 b1 b2 b3 : Byte) : bytesOfWord (wordOfBytes b0 b1 b2 b3) = [b0, b1, b2, b3] := by
  have lane {b : Byte} {k : Nat} (h : ∀ i < 8, (wordOfBytes b0 b1 b2 b3).getLsbD (8 * k + i) = b.getLsbD i) :
      byteOf (wordOfBytes b0 b1 b2 b3) k = b := by
    refine BitVec.eq_of_getLsbD_eq fun i hi => ?_
    rw [byteOf, BitVec.getLsbD_extractLsb', decide_eq_true hi, Bool.true_and, h i hi]
  have lane0 : byteOf (wordOfBytes b0 b1 b2 b3) 0 = b0 := lane fun i hi => by
    rw [wordOfBytes_getLsbD, if_pos (by omega), show 8 * 0 + i = i by omega]
  have lane1 : byteOf (wordOfBytes b0 b1 b2 b3) 1 = b1 := lane fun i hi => by
    rw [wordOfBytes_getLsbD, if_neg (by omega), if_pos (by omega), show 8 * 1 + i - 8 = i by omega]
  have lane2 : byteOf (wordOfBytes b0 b1 b2 b3) 2 = b2 := lane fun i hi => by
    rw [wordOfBytes_getLsbD, if_neg (by omega), if_neg (by omega), if_pos (by omega), show 8 * 2 + i - 16 = i by omega]
  have lane3 : byteOf (wordOfBytes b0 b1 b2 b3) 3 = b3 := lane fun i hi => by
    rw [wordOfBytes_getLsbD, if_neg (by omega), if_neg (by omega), if_neg (by omega), show 8 * 3 + i - 24 = i by omega]
  rw [bytesOfWord, lane0, lane1, lane2, lane3]

/-- Settles O32: the lanes are read back (`bytesOfWord_wordOfBytes`), and a command consumes them from lane 0 on
(`consumedBytes_eq_take`). -/
theorem byteLanesAreLittleEndian : Obligations.ByteLanesAreLittleEndian := by
  refine ⟨bytesOfWord_wordOfBytes, fun v k _ => ?_, fun d nb most => consumedBytes_eq_take d most⟩
  apply BitVec.eq_of_toNat_eq
  rw [byteOf, BitVec.extractLsb'_toNat, Nat.shiftRight_eq_div_pow, BitVec.toNat_ofNat]

/-! ### The decoder and the encoder (30_encoding.md R47) -/

theorem decodeWord_encode (e : Engines) {i : Instr} (h : i.wellFormed e = true) : decodeWord e (encode i) = .ok i := by
  cases i with
  | nop | crcInit | errClr => simp [encode, decodeWord, withoutOperand]
  | crcUpdT nb =>
    obtain ⟨engine, count⟩ : e.table = true ∧ byteCountOk nb = true := by simpa [Instr.wellFormed] using h
    simp [encode, decodeWord, engine, countOfArg_argOfCount count]
  | crcUpdS nb =>
    obtain ⟨engine, count⟩ : e.serial = true ∧ byteCountOk nb = true := by simpa [Instr.wellFormed] using h
    simp [encode, decodeWord, engine, countOfArg_argOfCount count]
  | fxQ17S | fxQ21S | fxQ15U => simp [encode, decodeWord, decodeFormat]

theorem decode_bytesOfWord (e : Engines) {w : Word} {i : Instr} (h : decodeWord e w = .ok i) (rest : List Byte) :
    decode e (bytesOfWord w ++ rest) = .ok (i, rest) := by
  simp only [bytesOfWord, List.cons_append, List.nil_append, decode, wordOfBytes_lanes, h]

/-- Settles O1: the decoder undoes the encoder on words (`decodeWord_encode`), and bytes are read as their word
(`decode_bytesOfWord`). -/
theorem encodedCommandsDecodeToThemselves : Obligations.EncodedCommandsDecodeToThemselves := fun e _ rest wf =>
  ⟨decodeWord_encode e wf, decode_bytesOfWord e (decodeWord_encode e wf) rest⟩

/-- Settles O2, row by row of what the decoder can take (`decodeWord_ok`). -/
theorem decodedWordsEncodeBack : Obligations.DecodedWordsEncodeBack := by
  intro e w i h
  rcases decodeWord_ok h with ⟨rfl, rfl⟩ | ⟨rfl, rfl⟩ | ⟨a, engine, rfl, rfl⟩ | ⟨a, engine, rfl, rfl⟩ | ⟨rfl, rfl⟩ | ⟨rfl, rfl⟩ |
    ⟨rfl, rfl⟩ | ⟨rfl, rfl⟩
  · exact ⟨rfl, rfl⟩
  · exact ⟨rfl, rfl⟩
  · simp [Instr.wellFormed, engine, byteCountOk_countOfArg, encode]
  · simp [Instr.wellFormed, engine, byteCountOk_countOfArg, encode]
  · exact ⟨rfl, rfl⟩
  · exact ⟨rfl, rfl⟩
  · exact ⟨rfl, rfl⟩
  · exact ⟨rfl, rfl⟩

/-- Settles O6: the decoder on eight fixed words. -/
theorem sampleWordsDecode : Obligations.SampleWordsDecode :=
  ⟨rfl, rfl, rfl, rfl, rfl, rfl, rfl, rfl⟩

/-! ### The rows of the opcode map (30_encoding.md R47) -/

theorem OpRow.spells_iff (row : OpRow) (w : Word) : row.spells w = true ↔ w &&& row.mask = row.pattern := beq_iff_eq

/-- Two rows do not overlap where their patterns differ in a bit that both rows test. -/
theorem OpRow.not_both_spell {a b : OpRow} (apart : a.pattern &&& b.mask ≠ b.pattern &&& a.mask) (w : Word) :
    ¬ (a.spells w = true ∧ b.spells w = true) := by
  rw [spells_iff, spells_iff]
  rintro ⟨ha, hb⟩
  apply apart
  rw [← ha, ← hb]
  ac_rfl

theorem opcodeTable_disjoint : opcodeTable.Pairwise (fun a b => ∀ w : Word, ¬ (a.spells w = true ∧ b.spells w = true)) := by
  have apart : opcodeTable.Pairwise (fun a b => a.pattern &&& b.mask ≠ b.pattern &&& a.mask) := by decide
  exact apart.imp OpRow.not_both_spell

/-- A row's pattern is legal, and the row tests every bit, or all but the count that `CRC.UPD.T` or `CRC.UPD.S` takes. -/
theorem opcodeTable_masks : ∀ row ∈ opcodeTable, legal Config.engines row.pattern = true ∧
    (row.mask = BitVec.allOnes 32 ∨
      (rsvOf row.mask = BitVec.allOnes 22 ∧ rsvOf row.pattern = 0#22 ∧ opcOf row.mask = BitVec.allOnes 8 ∧
        (opcOf row.pattern = 0x02#8 ∨ opcOf row.pattern = 0x03#8))) := by
  decide

theorem legal_of_spells {row : OpRow} {w : Word} (listed : row ∈ opcodeTable) (h : row.spells w = true) :
    legal Config.engines w = true := by
  rw [OpRow.spells_iff] at h
  obtain ⟨legalPattern, wholeWord | ⟨rsvMask, rsvPattern, opcMask, opcPattern⟩⟩ := opcodeTable_masks row listed
  · rw [wholeWord, BitVec.and_allOnes] at h
    rwa [h]
  · have rsv : rsvOf w = 0#22 := by
      rw [← rsvPattern, ← h, rsvOf, rsvOf, BitVec.extractLsb'_and, ← rsvOf, ← rsvOf, rsvMask, BitVec.and_allOnes]
    have opc : opcOf w = opcOf row.pattern := by
      rw [← h, opcOf, opcOf, BitVec.extractLsb'_and, ← opcOf, ← opcOf, opcMask, BitVec.and_allOnes]
    rw [legal_iff, rsv, opc]
    rcases opcPattern with updT | updS
    · exact ⟨rfl, .inr (.inr (.inl ⟨updT, rfl⟩))⟩
    · exact ⟨rfl, .inr (.inr (.inr (.inl ⟨updS, rfl⟩)))⟩

/-- Every legal word spells the row of its command. -/
theorem row_of_decodeWord {w : Word} {i : Instr} (h : decodeWord Config.engines w = .ok i) :
    ∃ row ∈ opcodeTable, row.mnemonic = i.mnemonic ∧ row.multi = i.isMulti ∧ row.spells w = true := by
  obtain ⟨wf, rfl⟩ := decodedWordsEncodeBack Config.engines w i h
  cases i with
  | nop => exact Laws.RowMatch.nop _ wf
  | crcInit => exact Laws.RowMatch.crcInit _ wf
  | crcUpdT nb => exact Laws.RowMatch.crcUpdT nb _ wf
  | crcUpdS nb => exact Laws.RowMatch.crcUpdS nb _ wf
  | fxQ17S => exact Laws.RowMatch.fxQ17S _ wf
  | fxQ21S => exact Laws.RowMatch.fxQ21S _ wf
  | fxQ15U => exact Laws.RowMatch.fxQ15U _ wf
  | errClr => exact Laws.RowMatch.errClr _ wf

theorem row_unique {a b : OpRow} {w : Word} (ha : a ∈ opcodeTable) (hb : b ∈ opcodeTable) (spellsA : a.spells w = true)
    (spellsB : b.spells w = true) : a = b := by
  by_contra different
  have symmetric : Std.Symm fun a b : OpRow => ∀ w : Word, ¬ (a.spells w = true ∧ b.spells w = true) :=
    ⟨fun _ _ apart w both => apart w both.symm⟩
  exact opcodeTable_disjoint.forall ha hb different w ⟨spellsA, spellsB⟩

/-- Settles O4: the rows are apart (`opcodeTable_disjoint`), each legal word spells the row of its command
(`row_of_decodeWord`), and so no other. -/
theorem opcodeRowsAgreeWithTheDecoder : Obligations.OpcodeRowsAgreeWithTheDecoder := by
  refine ⟨opcodeTable_disjoint, fun w => ⟨?_, ?_⟩, fun w i row decoded listed spells => ?_⟩
  · rintro ⟨row, listed, spells⟩
    exact decodeWord_of_legal _ (legal_of_spells listed spells)
  · rintro ⟨i, decoded⟩
    obtain ⟨row, listed, -, -, spells⟩ := row_of_decodeWord decoded
    exact ⟨row, listed, spells⟩
  · obtain ⟨row', listed', mnemonic, multi, spells'⟩ := row_of_decodeWord decoded
    obtain rfl := row_unique listed listed' spells spells'
    exact ⟨mnemonic, multi⟩

/-! ### The assembler (30_encoding.md R50, R51) -/

/-- A space ends the part being read. -/
theorem lineParts_append_space {x : List Char} (hx : ' ' ∉ x) (y part : List Char) (nonempty : part ≠ [] ∨ x ≠ []) :
    lineParts part (x ++ ' ' :: y) = (part.reverse ++ x) :: lineParts [] y := by
  induction x generalizing part with
  | nil =>
    have begun : part ≠ [] := nonempty.resolve_right (· rfl)
    simp [lineParts, begun]
  | cons c cs ih =>
    obtain ⟨hc, hcs⟩ : ' ' ≠ c ∧ ' ' ∉ cs := by simpa using hx
    simp [lineParts, Ne.symm hc, ih hcs (c :: part) (.inl (List.cons_ne_nil c part))]

theorem space_mem_map_toUpper (x : List Char) : ' ' ∈ x.map Char.toUpper ↔ ' ' ∈ x := by
  simp [toUpper_eq (d := ' ') (by decide)]

/-- A line of a mnemonic, one space and a text without spaces. -/
theorem assembleInstr_operand {m x : List Char} (nonempty : m ≠ []) (hm : ' ' ∉ m) (hx : ' ' ∉ x) :
    assembleInstr (m ++ ' ' :: x) =
      if x = [] then plainMnemonic (m.map Char.toUpper)
      else operandMnemonic (m.map Char.toUpper) (x.map Char.toUpper) := by
  have space : Char.toUpper ' ' = ' ' := by decide
  have hm' : ' ' ∉ m.map Char.toUpper := mt (space_mem_map_toUpper m).mp hm
  have hx' : ' ' ∉ x.map Char.toUpper := mt (space_mem_map_toUpper x).mp hx
  rw [assembleInstr, List.map_append, List.map_cons, space, lineParts_append_space hm' _ _ (.inr (by simpa using nonempty)),
    lineParts_word _ hx']
  by_cases blank : x = [] <;> simp [blank]

theorem countText_eq_none {x : List Char} (h : x ∉ [['1'], ['2'], ['3'], ['4']]) : countText x = none := by
  unfold countText
  split
  · simp at h
  · simp at h
  · simp at h
  · simp at h
  · rfl

/-- The case of the letters makes no text a count. -/
theorem countText_map_toUpper {x : List Char} (h : x ∉ [['1'], ['2'], ['3'], ['4']]) :
    countText (x.map Char.toUpper) = none := by
  refine countText_eq_none fun listed => h ?_
  have digit (d : Char) (hd : d.toNat < 65) : x.map Char.toUpper = [d] → x = [d] := by
    rw [List.map_eq_singleton_iff]
    rintro ⟨c, rfl, hc⟩
    rw [(toUpper_eq hd).mp hc]
  simp only [List.mem_cons, List.not_mem_nil, or_false] at listed ⊢
  exact listed.imp (digit _ (by decide)) (.imp (digit _ (by decide)) (.imp (digit _ (by decide)) (digit _ (by decide))))

theorem assemble_bad_count {m x : List Char} {f : Nat → Instr} (nonempty : m ≠ []) (hm : ' ' ∉ m)
    (plain : plainMnemonic (m.map Char.toUpper) = none)
    (operand : ∀ y, operandMnemonic (m.map Char.toUpper) y = (countText y).map f)
    (hx : ' ' ∉ x) (bad : x ∉ [['1'], ['2'], ['3'], ['4']]) : assemble (m ++ ' ' :: x) = none := by
  rw [assemble, assembleInstr_operand nonempty hm hx, plain, operand, countText_map_toUpper bad]
  split <;> rfl

theorem assemble_of_map_toUpper_eq {line line' : List Char} (h : line'.map Char.toUpper = line.map Char.toUpper) :
    assemble line' = assemble line := by
  rw [assemble, assemble, assembleInstr, assembleInstr, h]

/-- Settles O7: the listed lines by evaluation, other counts by `assemble_bad_count`, and the case of the letters since the
assembler reads the upper-case line. -/
theorem assemblerGivesTheWords : Obligations.AssemblerGivesTheWords := by
  refine ⟨by decide, by decide, fun x hx bad => ⟨?_, ?_, ?_⟩, fun line => ⟨?_, ?_⟩⟩
  · exact assemble_bad_count (m := ['C', 'R', 'C', '.', 'U', 'P', 'D', '.', 'T']) (by decide) (by decide) (by decide)
      (fun _ => rfl) hx bad
  · exact assemble_bad_count (m := ['C', 'R', 'C', '.', 'U', 'P', 'D', '.', 'S']) (by decide) (by decide) (by decide)
      (fun _ => rfl) hx bad
  · exact assemble_bad_count (m := ['C', 'R', 'C', '.', 'U', 'P', 'D']) (by decide) (by decide) (by decide) (fun _ => rfl) hx bad
  · refine assemble_of_map_toUpper_eq ?_
    rw [List.map_map]
    exact List.map_congr_left fun c _ => toUpper_toUpper c
  · refine assemble_of_map_toUpper_eq ?_
    rw [List.map_map]
    exact List.map_congr_left fun c _ => toUpper_toLower c

end Sys2Proof.Machine
end

section
/-! SUPPORT. Proofs about the hidden state and the invariant (spec/10_state.md R25, 40_fixed_point.md R60): every event keeps `BUSY`
and the pending record together, and the record's operands are the registers. -/

namespace Sys2Proof.Machine

variable (e : Engines) (s : State)

/-! ### The invariant (10_state.md R25, R26) -/

theorem blockInv_iff_of_idle {s : State} (idle : s.pend = none) : BlockInv s ↔ s.status.busy = false := by
  simp [BlockInv, operandsHeld, idle]

/-- The invariant reads `BUSY`, the pending record and its three operands only. -/
theorem BlockInv.of_eq {s t : State} (inv : BlockInv s) (busy : t.status.busy = s.status.busy) (pend : t.pend = s.pend)
    (r : t.r = s.r) (d : t.d = s.d) (xi : t.xi = s.xi) : BlockInv t := by
  simpa [BlockInv, operandsHeld, busy, pend, r, d, xi] using inv

/-- While nothing is pending the invariant does not read the registers. -/
theorem BlockInv.of_idle {s t : State} (inv : BlockInv s) (idle : s.pend = none) (busy : t.status.busy = s.status.busy)
    (pend : t.pend = none) : BlockInv t :=
  (blockInv_iff_of_idle pend).mpr (busy.trans ((blockInv_iff_of_idle idle).mp inv))

theorem blockInv_acceptMulti (c : PendCmd) : BlockInv (acceptMulti c s) := by
  simp [BlockInv, operandsHeld]

theorem complete_busy {s : State} {p : Pend} (h : s.pend = some p) : (complete s).status.busy = false := by
  rcases complete_pending s h with ⟨_, _, eq⟩ | ⟨_, _, eq⟩ | ⟨_, eq⟩ | ⟨_, eq⟩ | ⟨_, eq⟩ <;> rw [eq] <;> rfl

theorem blockInv_complete {s : State} (inv : BlockInv s) : BlockInv (complete s) := by
  cases hp : s.pend with
  | none => rwa [complete_idle s hp]
  | some p => exact (blockInv_iff_of_idle (complete_pend s)).mpr (complete_busy hp)

theorem blockInv_applyReset : BlockInv (applyReset s) := (blockInv_iff_of_idle rfl).mpr rfl

/-- Settles O40. -/
theorem busyMatchesPendAtReset : Obligations.BusyMatchesPendAtReset :=
  ⟨(blockInv_iff_of_idle rfl).mpr rfl, blockInv_applyReset⟩

variable {s}

theorem blockInv_recordRead (off : Offset) (inv : BlockInv s) : BlockInv (recordRead e off s) := by
  obtain ⟨r, d, xi, -, status, pend, -⟩ := recordRead_frame e s off
  exact inv.of_eq (congrArg Status.busy status) pend r d xi

theorem blockInv_exec {i : Instr} {t : State} (inv : BlockInv s) (h : exec i s = .next t) : BlockInv t := by
  rcases exec_cases s h with ⟨_, _, rfl⟩ | ⟨idle, ⟨_, rfl⟩ | ⟨_, rfl⟩ | ⟨_, rfl⟩ | ⟨_, c, rfl⟩⟩
  · exact inv.of_eq rfl rfl rfl rfl rfl
  · exact inv
  · exact inv.of_idle idle rfl idle
  · exact inv.of_eq rfl rfl rfl rfl rfl
  · exact blockInv_acceptMulti s c

theorem blockInv_accept {w : Word} {t : State} (inv : BlockInv s) (h : accept e w s = .next t) : BlockInv t := by
  rcases accept_cases e s w with ⟨i, _, legalWord⟩ | ⟨_, _, illegalWord⟩
  · exact blockInv_exec inv (legalWord.symm.trans h)
  · cases illegalWord.symm.trans h
    exact inv.of_eq rfl rfl rfl rfl rfl

theorem blockInv_memWrite {off : Offset} {n v : Nat} {t : State} (inv : BlockInv s) (h : memWrite e off n v s = .next t) :
    BlockInv t := by
  obtain ⟨-, outcome⟩ := memWrite_next e s h
  rcases outcome with ⟨_, _, _, rfl⟩ | ⟨_, rfl⟩ | ⟨_, _, accepted⟩ | ⟨idle, _, rfl⟩ | ⟨idle, _, rfl⟩ | ⟨idle, _, rfl⟩
  · exact inv.of_eq rfl rfl rfl rfl rfl
  · exact inv
  · exact blockInv_accept e inv accepted
  · exact inv.of_idle idle rfl idle
  · exact inv.of_idle idle rfl idle
  · exact inv.of_idle idle rfl idle

theorem blockInv_serve {ev : Event} {t : State} (inv : BlockInv s) (h : serve e ev s = .next t) : BlockInv t := by
  rcases serve_next e s h with ⟨off, _, _, _, rfl⟩ | ⟨_, _, _, _, written⟩ | ⟨_, rfl⟩ | ⟨_, rfl⟩
  · exact blockInv_recordRead e off inv
  · exact blockInv_memWrite e inv written
  · exact blockInv_complete inv
  · exact blockInv_applyReset s

/-- Settles O39: the unit's step (`blockInv_complete`) and every event (`blockInv_serve`) keep the invariant. -/
theorem busyMatchesPendAlways : Obligations.BusyMatchesPendAlways := by
  intro s t inv h
  rcases step_next s h with ⟨_, rfl⟩ | ⟨ev, rest, _, served⟩
  · exact blockInv_complete inv
  · have invTaken : BlockInv (s.setInputs rest) := inv.of_eq rfl rfl rfl rfl rfl
    exact blockInv_serve Config.engines invTaken served

/-- The `BUSY` bit that a host reads (20_memory.md R39). -/
theorem status_bit_busy (inv : BlockInv s) : s.status.word.getLsbD 0 = s.pend.isSome := by
  obtain ⟨busyBit, -⟩ := s.status.word_bits
  obtain ⟨busy, -⟩ := inv
  exact busyBit.trans busy

theorem Status.word_getLsbD_ge (st : Status) {k : Nat} (hk : 3 ≤ k) : st.word.getLsbD k = false := by
  have above : (st.word.extractLsb' 3 29).getLsbD (k - 3) = false := by rw [st.word_reserved, BitVec.getLsbD_zero]
  rw [BitVec.getLsbD_extractLsb', Nat.add_sub_cancel' hk] at above
  by_cases inWord : k < 32
  · simpa [show k - 3 < 29 by omega] using above
  · exact BitVec.getLsbD_of_ge _ _ (by omega)

/-- Settles O22: the bits of the word, and the `BUSY` bit under the invariant (`status_bit_busy`). -/
theorem statusReadsTheFlags : Obligations.StatusReadsTheFlags := by
  refine ⟨fun st => ?_, fun e s inv => ?_⟩
  · obtain ⟨busy, ill, berr⟩ := st.word_bits
    exact ⟨busy, ill, berr, fun k hk => st.word_getLsbD_ge hk⟩
  · rw [readValue_status, status_bit_busy inv, Option.isSome_eq_false_iff, Option.isNone_iff_eq_none]

end Sys2Proof.Machine
end

section
/-! SUPPORT. Proofs about the fixed-point codec (spec/40_fixed_point.md R53, R54, R59): the rounding to 24 significant bits as
arithmetic, the number a pattern stands for, and from these the codec's properties. -/

namespace Sys2Proof.Machine

/-! ### The rounding (40_fixed_point.md R53) -/

/-- `g * 2^k` is a multiple of `2^k` nearest to `m`, and among two equally near the one with `g` even. -/
def IsNearestMultiple (m k g : Nat) : Prop :=
  (2 * m ≤ (2 * g + 1) * 2 ^ k ∧ 2 * g * 2 ^ k ≤ 2 * m + 2 ^ k) ∧
    ((2 * m = (2 * g + 1) * 2 ^ k ∨ 2 * g * 2 ^ k = 2 * m + 2 ^ k) → g % 2 = 0)

/-- R53's test of the remainder, for a divisor `2^k = 2 * h`. -/
theorem isNearestMultiple_of_remainder {m k h : Nat} (hk : 2 ^ k = 2 * h) :
    IsNearestMultiple m k
      (if m % 2 ^ k > h ∨ (m % 2 ^ k = h ∧ m / 2 ^ k % 2 = 1) then m / 2 ^ k + 1 else m / 2 ^ k) := by
  have positive : 0 < 2 ^ k := Nat.two_pow_pos k
  have bound : m % 2 ^ k < 2 ^ k := Nat.mod_lt _ positive
  have division : m / 2 ^ k * 2 ^ k + m % 2 ^ k = m := Nat.div_add_mod' m (2 ^ k)
  generalize m / 2 ^ k = g at *
  generalize m % 2 ^ k = r at *
  rw [hk] at bound division positive
  have expand : g * (2 * h) = 2 * (g * h) := by ring
  have low : (2 * g + 1) * (2 * h) = 4 * (g * h) + 2 * h := by ring
  have high : (2 * (g + 1) + 1) * (2 * h) = 4 * (g * h) + 6 * h := by ring
  have lowEven : 2 * g * (2 * h) = 4 * (g * h) := by ring
  have highEven : 2 * (g + 1) * (2 * h) = 4 * (g * h) + 4 * h := by ring
  unfold IsNearestMultiple
  split
  · rw [hk, high, highEven]
    omega
  · rw [hk, low, lowEven]
    omega

/-- Up to 24 significant bits nothing is rounded. -/
theorem roundToSignificand_small {m : Nat} (small : m.log2 ≤ 23) :
    roundToSignificand m = (m * 2 ^ (23 - m.log2), m.log2) := by
  simp [roundToSignificand, small, Nat.shiftLeft_eq]

/-- Above, `g` is the rounded quotient; where it carries into a new bit it is halved. -/
theorem roundToSignificand_large {m : Nat} (large : 23 < m.log2) :
    ∃ g, IsNearestMultiple m (m.log2 - 23) g ∧
      roundToSignificand m = if g = 2 ^ 24 then (2 ^ 23, m.log2 + 1) else (g, m.log2) := by
  have half : 2 ^ (m.log2 - 23) = 2 * (1 <<< (m.log2 - 23 - 1)) := by
    rw [Nat.shiftLeft_eq, one_mul, ← Nat.pow_succ', show (m.log2 - 23 - 1).succ = m.log2 - 23 by omega]
  have remainder : m - (m / 2 ^ (m.log2 - 23)) <<< (m.log2 - 23) = m % 2 ^ (m.log2 - 23) := by
    rw [Nat.shiftLeft_eq]
    have division := Nat.div_add_mod' m (2 ^ (m.log2 - 23))
    omega
  refine ⟨_, isNearestMultiple_of_remainder half, ?_⟩
  simp only [roundToSignificand, if_neg (Nat.not_le.mpr large), Nat.shiftRight_eq_div_pow, remainder]

/-- The rounded quotient has 24 bits, or carries to the least number of 25. -/
theorem IsNearestMultiple.range {m g : Nat} (large : 23 < m.log2) (h : IsNearestMultiple m (m.log2 - 23) g) :
    2 ^ 23 ≤ g ∧ g ≤ 2 ^ 24 := by
  have nonzero : m ≠ 0 := by rintro rfl; simp at large
  obtain ⟨⟨above, below⟩, -⟩ := h
  have least : 2 ^ 23 * 2 ^ (m.log2 - 23) ≤ m := by
    rw [← Nat.pow_add, show 23 + (m.log2 - 23) = m.log2 by omega]
    exact Nat.log2_self_le nonzero
  have most : m < 2 ^ 24 * 2 ^ (m.log2 - 23) := by
    rw [← Nat.pow_add, show 24 + (m.log2 - 23) = m.log2 + 1 by omega]
    exact Nat.lt_log2_self
  generalize 2 ^ (m.log2 - 23) = u at *
  constructor
  · by_contra less
    have short : (2 * g + 1) * u ≤ (2 * 2 ^ 23 - 1) * u := Nat.mul_le_mul_right u (by omega)
    omega
  · by_contra more
    have long : (2 * 2 ^ 24 + 2) * u ≤ 2 * g * u := Nat.mul_le_mul_right u (by omega)
    omega

/-- The significand has 24 bits. -/
theorem roundToSignificand_range {m : Nat} (nonzero : m ≠ 0) :
    2 ^ 23 ≤ (roundToSignificand m).1 ∧ (roundToSignificand m).1 < 2 ^ 24 := by
  by_cases small : m.log2 ≤ 23
  · rw [roundToSignificand_small small]
    constructor
    · calc 2 ^ 23 = 2 ^ m.log2 * 2 ^ (23 - m.log2) := by rw [← Nat.pow_add, Nat.add_sub_cancel' small]
        _ ≤ m * 2 ^ (23 - m.log2) := Nat.mul_le_mul_right _ (Nat.log2_self_le nonzero)
    · calc m * 2 ^ (23 - m.log2) < 2 ^ (m.log2 + 1) * 2 ^ (23 - m.log2) :=
          Nat.mul_lt_mul_of_pos_right Nat.lt_log2_self (Nat.two_pow_pos _)
        _ = 2 ^ 24 := by rw [← Nat.pow_add, show m.log2 + 1 + (23 - m.log2) = 24 by omega]
  · obtain ⟨g, nearest, eq⟩ := roundToSignificand_large (Nat.not_le.mp small)
    obtain ⟨least, most⟩ := nearest.range (Nat.not_le.mp small)
    rw [eq]
    split
    · norm_num
    · exact ⟨least, by omega⟩

theorem roundToSignificand_exponent (m : Nat) :
    (roundToSignificand m).2 = m.log2 ∨ (roundToSignificand m).2 = m.log2 + 1 := by
  by_cases small : m.log2 ≤ 23
  · rw [roundToSignificand_small small]
    exact .inl rfl
  · obtain ⟨g, -, eq⟩ := roundToSignificand_large (Nat.not_le.mp small)
    rw [eq]
    split
    · exact .inr rfl
    · exact .inl rfl

/-! ### The rounded number -/

/-- The number `q * 2^(p - 23)` that R53's significand and index stand for. -/
def roundedNumber (m : Nat) : ℚ := (roundToSignificand m).1 * (2 : ℚ) ^ ((roundToSignificand m).2 - 23 : ℤ)

theorem roundedNumber_small {m : Nat} (small : m.log2 ≤ 23) : roundedNumber m = m := by
  have power : (2 : ℚ) ^ (23 - m.log2) * (2 : ℚ) ^ ((m.log2 : ℤ) - 23) = 1 := by
    rw [← zpow_natCast, ← zpow_add₀ two_ne_zero, Nat.cast_sub small]
    norm_num
  rw [roundedNumber, roundToSignificand_small small]
  push_cast
  rw [mul_assoc, power, mul_one]

/-- Above 24 bits the rounded number is the nearest multiple of the last place; an odd significand is that of an odd multiple. -/
theorem roundedNumber_large {m : Nat} (large : 23 < m.log2) :
    ∃ g, IsNearestMultiple m (m.log2 - 23) g ∧ roundedNumber m = g * 2 ^ (m.log2 - 23) ∧
      (g % 2 = 0 → (roundToSignificand m).1 % 2 = 0) := by
  have place : (m.log2 : ℤ) - 23 = (m.log2 - 23 : ℕ) := by omega
  have placeAbove : ((m.log2 + 1 : ℕ) : ℤ) - 23 = (m.log2 - 23 : ℕ) + 1 := by omega
  obtain ⟨g, nearest, eq⟩ := roundToSignificand_large large
  refine ⟨g, nearest, ?_⟩
  rw [roundedNumber, eq]
  split
  · next carries =>
    rw [placeAbove, zpow_add_one₀ two_ne_zero, zpow_natCast, carries]
    refine ⟨?_, fun _ => by norm_num⟩
    push_cast
    ring
  · exact ⟨by rw [place, zpow_natCast], id⟩

/-- Zero, or a significand of at most 24 bits at some binary place: the form of every zero or normal binary32 value (R9), and of its
multiples by powers of two. -/
def OnGrid (y : ℚ) : Prop := y = 0 ∨ ∃ (s : ℕ) (j : ℤ), s < 2 ^ 24 ∧ |y| = s * 2 ^ j

/-- A number on the grid is a multiple of `2^k`, or less than `2^23` of them. -/
theorem OnGrid.multiple_or_small {y : ℚ} (h : OnGrid y) (k : ℕ) :
    (∃ z : ℤ, y = z * 2 ^ k) ∨ |y| < 2 ^ 23 * 2 ^ k := by
  rcases h with rfl | ⟨s, j, bound, magnitude⟩
  · exact .inl ⟨0, by simp⟩
  by_cases coarse : (k : ℤ) ≤ j
  · refine .inl ?_
    obtain ⟨i, rfl⟩ := Int.le.dest coarse
    rw [← Nat.cast_add, zpow_natCast, pow_add] at magnitude
    rcases abs_choice y with same | flipped
    · exact ⟨s * 2 ^ i, by rw [← same, magnitude]; push_cast; ring⟩
    · exact ⟨-(s * 2 ^ i), by rw [← neg_neg y, ← flipped, magnitude]; push_cast; ring⟩
  · refine .inr ?_
    have fine : j ≤ k - 1 := by omega
    have bound' : (s : ℚ) < 2 ^ 24 := by exact_mod_cast bound
    calc |y| = s * 2 ^ j := magnitude
      _ < 2 ^ 24 * 2 ^ j := mul_lt_mul_of_pos_right bound' (zpow_pos two_pos j)
      _ ≤ 2 ^ 24 * 2 ^ ((k : ℤ) - 1) :=
        mul_le_mul_of_nonneg_left (zpow_le_zpow_right₀ one_le_two fine) (by positivity)
      _ = 2 ^ 23 * 2 ^ k := by rw [zpow_sub_one₀ two_ne_zero, zpow_natCast]; ring

/-- The nearest multiple in rational numbers: half a place at most, and with half a place it is even. -/
theorem IsNearestMultiple.abs_sub_le {m k g : Nat} (h : IsNearestMultiple m k g) :
    |(g : ℚ) * 2 ^ k - m| ≤ 2 ^ k / 2 ∧ (|(g : ℚ) * 2 ^ k - m| = 2 ^ k / 2 → g % 2 = 0) := by
  obtain ⟨⟨above, below⟩, tie⟩ := h
  have above' : (2 * m : ℚ) ≤ (2 * g + 1) * 2 ^ k := by exact_mod_cast above
  have below' : (2 * g * 2 ^ k : ℚ) ≤ 2 * m + 2 ^ k := by exact_mod_cast below
  refine ⟨abs_le.mpr ⟨by linarith, by linarith⟩, fun half => tie ?_⟩
  rcases eq_or_eq_neg_of_abs_eq half with high | low
  · exact .inr (by exact_mod_cast (by linarith : (2 * g * 2 ^ k : ℚ) = 2 * m + 2 ^ k))
  · exact .inl (by exact_mod_cast (by linarith : (2 * m : ℚ) = (2 * g + 1) * 2 ^ k))

/-- No other multiple is nearer than the nearest one, and one as near is so only where that one is even. -/
theorem IsNearestMultiple.le_multiple {m k g : Nat} (h : IsNearestMultiple m k g) (z : ℤ) :
    |(g : ℚ) * 2 ^ k - m| ≤ |(z : ℚ) * 2 ^ k - m| ∧
      (|(g : ℚ) * 2 ^ k - m| = |(z : ℚ) * 2 ^ k - m| → (z : ℚ) * 2 ^ k = g * 2 ^ k ∨ g % 2 = 0) := by
  obtain ⟨half, even⟩ := h.abs_sub_le
  by_cases same : z = g
  · subst same
    exact ⟨le_refl _, fun _ => .inl rfl⟩
  · have distinct : (1 : ℚ) ≤ |(z : ℚ) - g| := by exact_mod_cast Int.one_le_abs (sub_ne_zero.mpr same)
    have apart : (2 : ℚ) ^ k ≤ |((z : ℚ) * 2 ^ k - m) - (g * 2 ^ k - m)| := by
      rw [sub_sub_sub_cancel_right, ← sub_mul, abs_mul, abs_pow, abs_two]
      exact le_mul_of_one_le_left (by positivity) distinct
    have triangle := abs_sub ((z : ℚ) * 2 ^ k - m) (g * 2 ^ k - m)
    exact ⟨by linarith, fun equal => .inr (even (by linarith))⟩

/-- R54(a) on magnitudes: no number on the grid is nearer to `m` than its rounded number, and one as near is so only where
the significand is even. -/
theorem roundedNumber_nearest (m : Nat) {y : ℚ} (grid : OnGrid y) :
    |roundedNumber m - m| ≤ |y - m| ∧
      (|roundedNumber m - m| = |y - m| → y = roundedNumber m ∨ (m ≠ 0 ∧ (roundToSignificand m).1 % 2 = 0)) := by
  by_cases small : m.log2 ≤ 23
  · rw [roundedNumber_small small, sub_self, abs_zero]
    exact ⟨abs_nonneg _, fun exact => .inl (sub_eq_zero.mp (abs_eq_zero.mp exact.symm))⟩
  · have large := Nat.not_le.mp small
    have nonzero : m ≠ 0 := by rintro rfl; simp at large
    obtain ⟨g, nearest, number, even⟩ := roundedNumber_large large
    rw [number]
    rcases grid.multiple_or_small (m.log2 - 23) with ⟨z, rfl⟩ | below
    · obtain ⟨le, tie⟩ := nearest.le_multiple z
      exact ⟨le, fun equal => (tie equal).imp_right fun evenMultiple => ⟨nonzero, even evenMultiple⟩⟩
    · have least : (2 : ℚ) ^ 23 * 2 ^ (m.log2 - 23) ≤ m := by
        rw [← pow_add, Nat.add_sub_cancel' large.le]
        exact_mod_cast Nat.log2_self_le nonzero
      obtain ⟨le, -⟩ := nearest.le_multiple (2 ^ 23)
      have farther : |((2 ^ 23 : ℤ) : ℚ) * 2 ^ (m.log2 - 23) - m| < |y - m| := by
        have own := le_abs_self y
        push_cast
        rw [abs_of_nonpos (by linarith), abs_of_nonpos (by linarith)]
        linarith
      exact ⟨(le.trans_lt farther).le, fun equal => absurd equal (le.trans_lt farther).ne⟩

/-! ### The number of a pattern (00_scope.md R9) -/

variable (sign : BitVec 1) (e : BitVec 8) (f : BitVec 23)

theorem signField_binary32 : signField (binary32 sign e f) = sign := by
  refine BitVec.eq_of_getLsbD_eq fun i hi => ?_
  rw [signField, BitVec.getLsbD_extractLsb', binary32, BitVec.getLsbD_append, if_neg (by omega), BitVec.getLsbD_append,
    if_neg (by omega), decide_eq_true hi, Bool.true_and, show 31 + i - 23 - 8 = i by omega]

theorem exponentField_binary32 : exponentField (binary32 sign e f) = e.toNat := by
  refine congrArg BitVec.toNat (BitVec.eq_of_getLsbD_eq fun i hi => ?_)
  rw [BitVec.getLsbD_extractLsb', binary32, BitVec.getLsbD_append, if_neg (by omega), BitVec.getLsbD_append,
    if_pos (by omega), decide_eq_true hi, Bool.true_and, show 23 + i - 23 = i by omega]

theorem fractionField_binary32 : fractionField (binary32 sign e f) = f.toNat := by
  refine congrArg BitVec.toNat (BitVec.eq_of_getLsbD_eq fun i hi => ?_)
  rw [BitVec.getLsbD_extractLsb', binary32, BitVec.getLsbD_append, if_pos (by omega), decide_eq_true hi, Bool.true_and,
    Nat.zero_add]

theorem binary32_getLsbD_zero : (binary32 sign e f).getLsbD 0 = f.getLsbD 0 := by
  rw [binary32, BitVec.getLsbD_append, if_pos (by decide)]

/-- The sign of an integer, as a factor. -/
def signFactor (v : ℤ) : ℚ := if v < 0 then -1 else 1

theorem signFactor_mul_natAbs (v : ℤ) : signFactor v * v.natAbs = v := by
  rw [signFactor, Nat.cast_natAbs]
  split
  · next negative => rw [abs_of_neg negative]; push_cast; ring
  · next positive => rw [abs_of_nonneg (not_lt.mp positive), one_mul]

theorem signFactor_mul_self (v : ℤ) : signFactor v * signFactor v = 1 := by
  unfold signFactor
  split <;> norm_num

theorem abs_signFactor_mul (v : ℤ) (x : ℚ) : |signFactor v * x| = |x| := by
  unfold signFactor
  split <;> simp

/-- Whatever the pattern, `value32` gives a number on the grid. -/
theorem onGrid_value32 (w : Word) : OnGrid (value32 w) := by
  unfold value32
  split
  · exact .inl rfl
  · refine .inr ⟨2 ^ 23 + fractionField w, (exponentField w : ℤ) - 150, ?_, ?_⟩
    · have bound : fractionField w < 2 ^ 23 := BitVec.isLt _
      omega
    · have positive : 0 < (1 + (fractionField w : ℚ) / 2 ^ 23) * (2 : ℚ) ^ ((exponentField w : ℤ) - 127) := by positivity
      have power : (2 : ℚ) ^ ((exponentField w : ℤ) - 127) = 2 ^ 23 * 2 ^ ((exponentField w : ℤ) - 150) := by
        rw [← zpow_natCast, ← zpow_add₀ two_ne_zero]
        congr 1
        push_cast
        ring
      have sign : |(if signField w = 1#1 then -1 else 1 : ℚ)| = 1 := by split <;> simp
      rw [mul_assoc, abs_mul, sign, one_mul, abs_of_pos positive, power]
      push_cast
      ring

theorem OnGrid.scale {y : ℚ} (h : OnGrid y) (v : ℤ) (n : ℕ) : OnGrid (signFactor v * (y * 2 ^ n)) := by
  rcases h with rfl | ⟨s, j, bound, magnitude⟩
  · exact .inl (by ring)
  · refine .inr ⟨s, j + n, bound, ?_⟩
    rw [abs_signFactor_mul, abs_mul, magnitude, abs_pow, abs_two, zpow_add₀ two_ne_zero, zpow_natCast, mul_assoc]

/-! ### The codec over its inputs (40_fixed_point.md R53) -/

/-- The integers and scales that the three conversions take. -/
structure CodecInput (v : ℤ) (n : ℕ) : Prop where
  least : -(2 ^ 31) ≤ v
  most : v ≤ 2 ^ 32 - 1
  scale : n ∈ [15, 17, 21]

variable {v : ℤ} {n : ℕ}

theorem CodecInput.scale_range (h : CodecInput v n) : 15 ≤ n ∧ n ≤ 21 := by
  obtain ⟨-, -, scale⟩ := h
  simp only [List.mem_cons, List.not_mem_nil, or_false] at scale
  omega

theorem CodecInput.natAbs_log2 (h : CodecInput v n) (nonzero : v ≠ 0) : v.natAbs.log2 ≤ 31 := by
  obtain ⟨least, most, -⟩ := h
  have bound : v.natAbs < 2 ^ 32 := by omega
  exact Nat.lt_succ_iff.mp ((Nat.log2_lt (Int.natAbs_ne_zero.mpr nonzero)).mpr bound)

/-- The exponent field is `p + 127 - n`: no bit of it is lost. -/
theorem CodecInput.exponent (h : CodecInput v n) (nonzero : v ≠ 0) :
    exponentField (fxToBinary32 v n) = (roundToSignificand v.natAbs).2 + 127 - n ∧
      (roundToSignificand v.natAbs).2 ≤ 32 := by
  obtain ⟨scaleLeast, scaleMost⟩ := h.scale_range
  have log2 := h.natAbs_log2 nonzero
  have index : (roundToSignificand v.natAbs).2 ≤ 32 := by
    rcases roundToSignificand_exponent v.natAbs with same | next <;> omega
  refine ⟨?_, index⟩
  rw [fxToBinary32, if_neg nonzero, exponentField_binary32, BitVec.toNat_ofNat, Nat.mod_eq_of_lt (by omega)]

theorem roundedNumber_zero : roundedNumber 0 = 0 := (roundedNumber_small (by decide)).trans Nat.cast_zero

theorem fractionField_fxToBinary32 (nonzero : v ≠ 0) :
    fractionField (fxToBinary32 v n) = (roundToSignificand v.natAbs).1 - 2 ^ 23 := by
  obtain ⟨least, most⟩ := roundToSignificand_range (Int.natAbs_ne_zero.mpr nonzero)
  rw [fxToBinary32, if_neg nonzero, fractionField_binary32, BitVec.toNat_ofNat, Nat.mod_eq_of_lt (by omega)]

/-- The number of the result: the rounded magnitude with the input's sign, at the input's scale. -/
theorem CodecInput.value (h : CodecInput v n) :
    value32 (fxToBinary32 v n) = signFactor v * roundedNumber v.natAbs / 2 ^ n := by
  by_cases zero : v = 0
  · rw [zero, Int.natAbs_zero, roundedNumber_zero, fxToBinary32, if_pos rfl, value32, if_pos rfl, mul_zero, zero_div]
  obtain ⟨exponent, -⟩ := h.exponent zero
  obtain ⟨scaleLeast, scaleMost⟩ := h.scale_range
  obtain ⟨least, -⟩ := roundToSignificand_range (Int.natAbs_ne_zero.mpr zero)
  have notZeroPattern : fxToBinary32 v n ≠ 0#32 := by
    intro zeroPattern
    have zeroField : exponentField 0#32 = 0 := by decide
    rw [zeroPattern, zeroField] at exponent
    omega
  have sign : (if signField (fxToBinary32 v n) = 1#1 then -1 else 1 : ℚ) = signFactor v := by
    rw [fxToBinary32, if_neg zero, signField_binary32, signFactor]
    split <;> simp
  have significand : 1 + (fractionField (fxToBinary32 v n) : ℚ) / 2 ^ 23 = (roundToSignificand v.natAbs).1 / 2 ^ 23 := by
    rw [fractionField_fxToBinary32 zero, Nat.cast_sub least]
    push_cast
    ring
  have power : (exponentField (fxToBinary32 v n) : ℤ) - 127 = (((roundToSignificand v.natAbs).2 : ℤ) - 23) + (23 : ℕ) - n := by
    omega
  rw [value32, if_neg notZeroPattern, sign, significand, power, zpow_sub₀ two_ne_zero, zpow_add₀ two_ne_zero, zpow_natCast,
    zpow_natCast, roundedNumber]
  field_simp

/-- The lowest bit of the result is that of the significand. -/
theorem fxToBinary32_getLsbD_zero (nonzero : v ≠ 0) (even : (roundToSignificand v.natAbs).1 % 2 = 0) :
    (fxToBinary32 v n).getLsbD 0 = false := by
  obtain ⟨least, -⟩ := roundToSignificand_range (Int.natAbs_ne_zero.mpr nonzero)
  have evenFraction : ((roundToSignificand v.natAbs).1 - 2 ^ 23) % 2 ≠ 1 := by omega
  rw [fxToBinary32, if_neg nonzero, binary32_getLsbD_zero, BitVec.getLsbD_ofNat, Nat.testBit_zero,
    decide_eq_false evenFraction, Bool.and_false]

/-- The error of any number against the input is that of its magnitude, scaled down. -/
theorem abs_sub_input (y : ℚ) :
    |y - (v : ℚ) / 2 ^ n| = |signFactor v * (y * 2 ^ n) - v.natAbs| / 2 ^ n := by
  have input := signFactor_mul_natAbs v
  have factored : y - (v : ℚ) / 2 ^ n = signFactor v * (signFactor v * (y * 2 ^ n) - v.natAbs) / 2 ^ n := by
    rw [mul_sub, ← mul_assoc, signFactor_mul_self, one_mul, input]
    field_simp
  rw [factored, abs_div, abs_signFactor_mul, abs_pow, abs_two]

theorem signFactor_scale_injective (v : ℤ) (n : ℕ) {x y : ℚ}
    (h : signFactor v * (x * 2 ^ n) = signFactor v * (y * 2 ^ n)) : x = y := by
  have factor : signFactor v ≠ 0 := left_ne_zero_of_mul_eq_one (signFactor_mul_self v)
  exact mul_right_cancel₀ (pow_ne_zero n two_ne_zero) (mul_left_cancel₀ factor h)

theorem CodecInput.magnitude (h : CodecInput v n) :
    signFactor v * (value32 (fxToBinary32 v n) * 2 ^ n) = roundedNumber v.natAbs := by
  rw [h.value, div_mul_cancel₀ _ (pow_ne_zero n two_ne_zero), ← mul_assoc, signFactor_mul_self, one_mul]

/-! ### The properties of R54 -/

/-- Settles O53: on magnitudes it is `roundedNumber_nearest`, and every pattern's number is on the grid. -/
theorem codecRoundsToNearestEven : Obligations.CodecRoundsToNearestEven := by
  intro v n w least most scale _
  have input : CodecInput v n := ⟨least, most, scale⟩
  obtain ⟨nearest, tie⟩ := roundedNumber_nearest v.natAbs ((onGrid_value32 w).scale v n)
  rw [abs_sub_input (v := v) (n := n) (value32 w), abs_sub_input (v := v) (n := n) (value32 (fxToBinary32 v n)), input.magnitude]
  refine ⟨div_le_div_of_nonneg_right nearest (by positivity), fun equal => ?_⟩
  rcases tie ((div_left_inj' (pow_ne_zero n two_ne_zero)).mp equal) with same | ⟨nonzero, even⟩
  · exact .inl (signFactor_scale_injective v n (same.trans input.magnitude.symm))
  · exact .inr (fxToBinary32_getLsbD_zero (Int.natAbs_ne_zero.mp nonzero) even)

/-- A magnitude is its own rounded number exactly when it has at most 24 significant bits: it is then on the grid itself. -/
theorem roundedNumber_eq_iff (m : Nat) : roundedNumber m = m ↔ ∃ q k : Nat, m = q * 2 ^ k ∧ q < 2 ^ 24 := by
  constructor
  · intro exact
    by_cases small : m.log2 ≤ 23
    · have bound : m < 2 ^ 24 := Nat.lt_log2_self.trans_le (Nat.pow_le_pow_right two_pos (by omega))
      exact ⟨m, 0, (mul_one m).symm, bound⟩
    · have large := Nat.not_le.mp small
      obtain ⟨g, nearest, number, -⟩ := roundedNumber_large large
      obtain ⟨-, atMost⟩ := nearest.range large
      have multiple : m = g * 2 ^ (m.log2 - 23) := by exact_mod_cast exact.symm.trans number
      rcases Nat.lt_or_ge g (2 ^ 24) with fits | carries
      · exact ⟨g, m.log2 - 23, multiple, fits⟩
      · rw [Nat.le_antisymm atMost carries, ← Nat.pow_add] at multiple
        exact ⟨1, _, multiple.trans (one_mul _).symm, by norm_num⟩
  · rintro ⟨q, k, eq, fits⟩
    have grid : OnGrid (m : ℚ) := .inr ⟨q, k, fits, by rw [eq, zpow_natCast]; push_cast; exact abs_of_nonneg (by positivity)⟩
    obtain ⟨nearest, -⟩ := roundedNumber_nearest m grid
    rw [sub_self, abs_zero] at nearest
    exact sub_eq_zero.mp (abs_nonpos_iff.mp nearest)

/-- Settles O54: on magnitudes it is `roundedNumber_eq_iff`. -/
theorem codecIsExactUpTo24Bits : Obligations.CodecIsExactUpTo24Bits := by
  intro v n least most scale
  have input : CodecInput v n := ⟨least, most, scale⟩
  rw [← roundedNumber_eq_iff, ← sub_eq_zero, ← abs_eq_zero, abs_sub_input, input.magnitude, div_eq_zero_iff,
    or_iff_left (pow_ne_zero n two_ne_zero), abs_eq_zero, sub_eq_zero]

/-- Settles O55: the fields of the pattern (`CodecInput.exponent`, `fxToBinary32_getLsbD_31`). -/
theorem codecResultsAreNormal : Obligations.CodecResultsAreNormal := by
  intro v n least most scale
  have input : CodecInput v n := ⟨least, most, scale⟩
  obtain ⟨scaleLeast, scaleMost⟩ := input.scale_range
  refine ⟨fun zero => if_pos zero, fun nonzero => ?_⟩
  obtain ⟨exponent, index⟩ := input.exponent nonzero
  exact ⟨by omega, by omega, fxToBinary32_getLsbD_31 v n⟩

/-! ### The result ranges (40_fixed_point.md R59) -/

theorem onGrid_two_pow (k : ℕ) : OnGrid (2 ^ k) := by
  refine .inr ⟨1, k, by norm_num, ?_⟩
  rw [zpow_natCast, Nat.cast_one, one_mul, abs_of_pos (by positivity)]

/-- A power of two that bounds a magnitude bounds its rounded number, since it is on the grid. -/
theorem roundedNumber_le_two_pow {m k : Nat} (h : m ≤ 2 ^ k) : roundedNumber m ≤ 2 ^ k := by
  obtain ⟨nearest, -⟩ := roundedNumber_nearest m (onGrid_two_pow k)
  have bound : (m : ℚ) ≤ 2 ^ k := by exact_mod_cast h
  rw [abs_of_nonneg (a := (2 : ℚ) ^ k - m) (by linarith)] at nearest
  linarith [le_abs_self (roundedNumber m - m)]

theorem one_le_roundedNumber {m : Nat} (nonzero : m ≠ 0) : 1 ≤ roundedNumber m := by
  obtain ⟨nearest, -⟩ := roundedNumber_nearest m (onGrid_two_pow 0)
  have bound : (1 : ℚ) ≤ m := by exact_mod_cast Nat.one_le_iff_ne_zero.mpr nonzero
  rw [pow_zero, abs_of_nonpos (a := (1 : ℚ) - m) (by linarith)] at nearest
  linarith [neg_abs_le (roundedNumber m - m)]

theorem roundedNumber_nonneg (m : Nat) : 0 ≤ roundedNumber m := by
  unfold roundedNumber
  positivity

theorem CodecInput.abs_value (h : CodecInput v n) : |value32 (fxToBinary32 v n)| = roundedNumber v.natAbs / 2 ^ n := by
  rw [h.value, abs_div, abs_signFactor_mul, abs_of_nonneg (roundedNumber_nonneg _), abs_pow, abs_two]

theorem CodecInput.abs_value_range (h : CodecInput v n) {k : ℕ} (bound : v.natAbs ≤ 2 ^ k) :
    |value32 (fxToBinary32 v n)| ≤ 2 ^ k / 2 ^ n ∧ (v ≠ 0 → 1 / 2 ^ n ≤ |value32 (fxToBinary32 v n)|) := by
  rw [h.abs_value]
  exact ⟨div_le_div_of_nonneg_right (roundedNumber_le_two_pow bound) (by positivity), fun nonzero =>
    div_le_div_of_nonneg_right (one_le_roundedNumber (Int.natAbs_ne_zero.mpr nonzero)) (by positivity)⟩

/-- The signed formats read `XI` as two's complement. -/
theorem codecInput_toInt (x : Word) {n : ℕ} (scale : n ∈ [15, 17, 21]) : CodecInput x.toInt n ∧ x.toInt.natAbs ≤ 2 ^ 31 := by
  have least := x.le_toInt
  have most := x.toInt_lt
  norm_num at least most
  exact ⟨⟨by omega, by omega, scale⟩, by omega⟩

theorem codecInput_toNat (x : Word) {n : ℕ} (scale : n ∈ [15, 17, 21]) :
    CodecInput (Int.ofNat x.toNat) n ∧ (Int.ofNat x.toNat).natAbs ≤ 2 ^ 32 := by
  have bound := x.isLt
  rw [Int.ofNat_eq_natCast]
  exact ⟨⟨by omega, by omega, scale⟩, by omega⟩

theorem toInt_range (x : Word) {n : ℕ} (scale : n ∈ [15, 17, 21]) :
    |value32 (fxToBinary32 x.toInt n)| ≤ 2 ^ 31 / 2 ^ n ∧ (x ≠ 0#32 → 1 / 2 ^ n ≤ |value32 (fxToBinary32 x.toInt n)|) := by
  obtain ⟨input, bound⟩ := codecInput_toInt x scale
  exact (input.abs_value_range bound).imp_right fun atLeast nonzero =>
    atLeast fun zero => nonzero (BitVec.eq_of_toInt_eq (zero.trans (by decide)))

/-- An unsigned result is not negative, and so is its own absolute value. -/
theorem toNat_range (x : Word) {n : ℕ} (scale : n ∈ [15, 17, 21]) :
    0 ≤ value32 (fxToBinary32 (Int.ofNat x.toNat) n) ∧ value32 (fxToBinary32 (Int.ofNat x.toNat) n) ≤ 2 ^ 32 / 2 ^ n ∧
      (x ≠ 0#32 → 1 / 2 ^ n ≤ value32 (fxToBinary32 (Int.ofNat x.toNat) n)) := by
  obtain ⟨input, bound⟩ := codecInput_toNat x scale
  have positive : signFactor (Int.ofNat x.toNat) = 1 := if_neg (Int.not_lt.mpr (Int.natCast_nonneg _))
  have nonneg : 0 ≤ value32 (fxToBinary32 (Int.ofNat x.toNat) n) := by
    rw [input.value, positive, one_mul]
    exact div_nonneg (roundedNumber_nonneg _) (by positivity)
  obtain ⟨atMost, atLeast⟩ := input.abs_value_range bound
  rw [abs_of_nonneg nonneg] at atMost atLeast
  refine ⟨nonneg, atMost, fun nonzero => atLeast fun zero => nonzero (BitVec.eq_of_toNat_eq ?_)⟩
  exact Int.ofNat.inj zero

/-- A normal pattern without fraction stands for a power of two. -/
theorem value32_of_fields {w : Word} {s : BitVec 1} {k : ℕ}
    (h : w ≠ 0#32 ∧ signField w = s ∧ exponentField w = k ∧ fractionField w = 0) :
    value32 w = (if s = 1#1 then -1 else 1) * 2 ^ ((k : ℤ) - 127) := by
  obtain ⟨nonzero, sign, exponent, fraction⟩ := h
  rw [value32, if_neg nonzero, sign, exponent, fraction, Nat.cast_zero, zero_div, add_zero, mul_one]

/-- Settles O56: the ranges by `toInt_range` and `toNat_range`; the inputs that attain them give powers of two. -/
theorem codecRanges : Obligations.CodecRanges := by
  refine ⟨fun x => ?_, fun x => ?_, fun x => ?_, ?_, ?_, ?_, ?_, ?_, ?_, ?_, ?_, ?_⟩
  · have range := toInt_range x (n := 17) (by decide)
    norm_num at range ⊢
    exact range
  · have range := toInt_range x (n := 21) (by decide)
    norm_num at range ⊢
    exact range
  · have range := toNat_range x (n := 15) (by decide)
    norm_num at range ⊢
    exact range
  · rw [value32_of_fields (s := 1#1) (k := 141) (by decide)]; norm_num
  · rw [value32_of_fields (s := 0#1) (k := 141) (by decide)]; norm_num
  · rw [value32_of_fields (s := 1#1) (k := 137) (by decide)]; norm_num
  · rw [value32_of_fields (s := 0#1) (k := 137) (by decide)]; norm_num
  · rw [value32_of_fields (s := 0#1) (k := 144) (by decide)]; norm_num
  · rw [value32_of_fields (s := 0#1) (k := 110) (by decide)]; norm_num
  · rw [value32_of_fields (s := 0#1) (k := 106) (by decide)]; norm_num
  · rw [value32_of_fields (s := 0#1) (k := 112) (by decide)]; norm_num
  · exact if_pos (by decide)

/-! ### FX_OUT holds codec patterns only (10_state.md R18, 40_fixed_point.md R54) -/

theorem codecPattern_iff (w : Word) :
    codecPattern w = true ↔ w = 0#32 ∨ (106 ≤ exponentField w ∧ exponentField w ≤ 144) := by
  simp only [codecPattern, exponentField, Bool.or_eq_true, Bool.and_eq_true, decide_eq_true_eq]

theorem codecPattern_fxToBinary32 (h : CodecInput v n) : codecPattern (fxToBinary32 v n) = true := by
  obtain ⟨least, most, scale⟩ := h
  obtain ⟨zero, normal⟩ := codecResultsAreNormal v n least most scale
  rw [codecPattern_iff]
  by_cases hv : v = 0
  · exact .inl (zero hv)
  · obtain ⟨least, most, -⟩ := normal hv
    exact .inr ⟨least, most⟩

theorem codecPattern_of_isConversionOf {p : Pend} {x : Word} (h : IsConversionOf p x) : codecPattern x = true := by
  rcases h with ⟨-, rfl⟩ | ⟨-, rfl⟩ | ⟨-, rfl⟩
  · obtain ⟨input, -⟩ := codecInput_toInt p.x0 (n := 17) (by decide)
    exact codecPattern_fxToBinary32 input
  · obtain ⟨input, -⟩ := codecInput_toInt p.x0 (n := 21) (by decide)
    exact codecPattern_fxToBinary32 input
  · obtain ⟨input, -⟩ := codecInput_toNat p.x0 (n := 15) (by decide)
    exact codecPattern_fxToBinary32 input

/-- Settles O41: of the ways `FX_OUT` changes (`fxOutChangesOnlyByCompletion`), a reset writes +0.0 and a completion writes a
conversion, whose operand is in the codec's range whatever it is (`codecPattern_of_isConversionOf`). -/
theorem fxOutIsAlwaysACodecPattern : Obligations.FxOutIsAlwaysACodecPattern := by
  refine ⟨fun s t held h => ?_, by decide⟩
  rcases fxOutChangesOnlyByCompletion s t h with same | ⟨_, _, zero⟩ | ⟨p, _, _, conversion⟩
  · rwa [same]
  · rw [zero]
    decide
  · exact codecPattern_of_isConversionOf (p := p) conversion

end Sys2Proof.Machine
end

section
/-! SUPPORT. Proofs about the commands and the register window over all steps (spec/10_state.md R14 to R21, R27, 20_memory.md R31,
R36, 60_exceptions.md R89, 70_reset_and_hazards.md R96, R101): what a step does to each register, and to which. -/

namespace Sys2Proof.Machine

variable (e : Engines) (s : State)

/-! ### The step (20_memory.md R38) -/

/-- A write of a legal word to `CMD` is its command, dropped or not (30_encoding.md R45). -/
theorem memWrite_cmd_decoded {w : Word} {i : Instr} (h : decodeWord e w = .ok i) :
    memWrite e 0x000#11 4 w.toNat s = exec i s := by
  cases hp : s.pend with
  | none => rw [memWrite_cmd_idle e s w hp, accept_ok e s h]
  | some p =>
    have busy : s.pend ≠ none := by rw [hp]; exact Option.some_ne_none p
    rw [memWrite_busy e s (by decide) (by decide) hp, exec_busy s i busy]

theorem commandWrite_toNat (w : Word) : commandWrite 32 w.toNat = .write 0x000#11 4 w.toNat := by
  rw [commandWrite, Nat.mod_eq_of_lt w.isLt]

/-- Settles O8, by `step_input`, `step_noInput` and `memWrite_cmd_decoded`. -/
theorem stepRunsTheDecodedCommand : Obligations.StepRunsTheDecodedCommand := by
  refine ⟨fun s w i decoded => ⟨fun rest hin => ?_, ?_, ?_⟩, fun s ev rest hin => step_input s hin, step_noInput⟩
  · rw [step_input s hin]
    exact memWrite_cmd_decoded Config.engines _ decoded
  · rw [State.withFetchWord, commandWrite_toNat, step_input _ (State.setInputs_inputs s _)]
    exact memWrite_cmd_decoded Config.engines _ decoded
  · rw [State.withFetchWord, commandWrite_toNat]
    rfl

/-- Serving an event leaves the events to come as they are. -/
theorem serve_inputs {ev : Event} {t : State} (h : serve e ev s = .next t) : t.inputs = s.inputs := by
  have replaced : serve e ev s = withInputs s.inputs (serve e ev s) := serve_setInputs e s ev s.inputs
  rw [h] at replaced
  have eq : t = t.setInputs s.inputs := Host.Outcome.next.inj replaced
  exact (congrArg State.inputs eq).trans (State.setInputs_inputs t s.inputs)

theorem serveAll_cons_next {s : State} {ev : Event} {rest : List Event} {t : State} (h : serve e ev s = .next t) :
    serveAll e (ev :: rest) s = serveAll e rest t := by
  simp only [serveAll, h]

theorem serveAll_cons_fault {s : State} {ev : Event} {rest : List Event} {x : Fault} (h : serve e ev s = .fault x) :
    serveAll e (ev :: rest) s = .fault x := by
  simp only [serveAll, h]

theorem serveAll_cons_refused {s : State} {ev : Event} {rest : List Event} {x : Refusal} (h : serve e ev s = .refused x) :
    serveAll e (ev :: rest) s = .refused x := by
  simp only [serveAll, h]

/-- Settles O9, by induction on the events: a step serves the first of them, and what it answers does not depend on the others. -/
theorem eventsAreServedInArrivalOrder : Obligations.EventsAreServedInArrivalOrder := by
  intro evs
  induction evs with
  | nil => exact fun s => rfl
  | cons ev rest ih =>
    intro s
    have served : step (s.setInputs (ev :: rest)) = withInputs rest (serve Config.engines ev (s.setInputs [])) := by
      rw [step_input _ (State.setInputs_inputs s _), ← serve_setInputs]
      rfl
    show Host.Core.run core (rest.length + 1) (s.setInputs (ev :: rest)) = serveAll Config.engines (ev :: rest) (s.setInputs [])
    cases ho : serve Config.engines ev (s.setInputs []) with
    | next t =>
      rw [ho] at served
      have kept : t.inputs = [] := serve_inputs Config.engines _ ho
      have empty : { t with inputs := [] } = t := by rw [← kept]
      rw [run_succ_next served, serveAll_cons_next Config.engines ho]
      exact (ih t).trans (by rw [empty])
    | fault x =>
      rw [ho] at served
      exact (run_succ_fault served).trans (serveAll_cons_fault Config.engines ho).symm
    | refused x =>
      rw [ho] at served
      exact (run_succ_refused served).trans (serveAll_cons_refused Config.engines ho).symm

/-! ### The frame of a command (10_state.md R27) -/

/-- Settles O18: in each case of `exec_cases` every field that the statement names stands as it was. -/
theorem commandFrame : Obligations.CommandFrame := by
  intro i s t h
  rcases exec_cases s h with ⟨p, busy, rfl⟩ | ⟨idle, ⟨rfl, rfl⟩ | ⟨rfl, rfl⟩ | ⟨rfl, rfl⟩ | ⟨multi, c, rfl⟩⟩
  · simp [busy]
  · simp
  · simp [idle]
  · simp [idle]
  · simp [idle, multi]

/-! ### Completion (70_reset_and_hazards.md R101) -/

theorem consumedBytes_countOfArg (d : Word) (arg : BitVec 2) :
    consumedBytes d (countOfArg arg) = (bytesOfWord d).take (arg.toNat + 1) := by
  have bound : arg.toNat < 4 := arg.isLt
  rw [consumedBytes_eq_take d (by rw [countOfArg]; omega), countOfArg]

/-- Settles O20, by the cases of `complete_pending`: each of the five records has one opcode and `ARG`. -/
theorem completionWritesTheResult : Obligations.CompletionWritesTheResult := by
  refine ⟨fun s p hp => ?_, complete_idle⟩
  rcases complete_pending s hp with ⟨a, hc, eq⟩ | ⟨a, hc, eq⟩ | ⟨hc, eq⟩ | ⟨hc, eq⟩ | ⟨hc, eq⟩ <;>
    simp [hc, eq, consumedBytes_countOfArg, PendCmd.op, PendCmd.arg]
  · rfl
  · rfl
  · rfl
  · rfl
  · rfl

/-- Settles O44. -/
theorem resetAbandonsThePendingCommand : Obligations.ResetAbandonsThePendingCommand := fun e s =>
  ⟨applyReset s, rfl, rfl, complete_idle _ rfl, fun j => by rw [readValue_table, readValue_table],
    by rw [readValue_config, readValue_config]⟩

/-- A command whose completion writes `XO` from `XI` leaves an idle block with the same `XI`, so it does the same again. -/
theorem conversion_repeats {c : PendCmd} {pattern : Word → Word} (idle : s.pend = none)
    (completes : ∀ u : State, complete (acceptMulti c u) = finish (u.setXo (pattern u.xi))) :
    ∃ t u, exec c.instr s = .next t ∧ exec c.instr (complete t) = .next u ∧ complete u = complete t ∧
      (complete t).xi = s.xi ∧ (complete t).r = s.r ∧ (complete t).d = s.d := by
  refine ⟨_, _, exec_pendCmd_idle s c idle, exec_pendCmd_idle _ c (complete_pend _), ?_, ?_⟩
  · rw [completes, completes]
    rfl
  · rw [completes]
    exact ⟨rfl, rfl, rfl⟩

/-- Settles O57, by `conversion_repeats` for each format. -/
theorem conversionsRepeat : Obligations.ConversionsRepeat := by
  intro i s listed idle
  fin_cases listed
  · exact conversion_repeats s (c := .q17s) (pattern := fxQ17S) idle complete_acceptMulti_q17s
  · exact conversion_repeats s (c := .q21s) (pattern := fxQ21S) idle complete_acceptMulti_q21s
  · exact conversion_repeats s (c := .q15u) (pattern := fxQ15U) idle complete_acceptMulti_q15u

/-! ### What a read answers (20_memory.md R31) -/

/-- The registers whose read takes a draw while a command is pending stand at three offsets (70_reset_and_hazards.md R103). -/
theorem anyWhileBusy_winReg_iff (off : Offset) :
    (winReg off).anyWhileBusy = true ↔ off ∈ [0x008#11, 0x00C#11, 0x018#11] := by
  constructor
  · unfold winReg
    split_ifs <;> simp_all [WinReg.anyWhileBusy]
  · intro listed
    fin_cases listed
    · rw [winReg_crcState]; rfl
    · rw [winReg_crcResult]; rfl
    · rw [winReg_fxOut]; rfl

theorem takesDraw_iff (off : Offset) :
    takesDraw (winReg off) s = true ↔ s.pend ≠ none ∧ off ∈ [0x008#11, 0x00C#11, 0x018#11] := by
  rw [takesDraw, Bool.and_eq_true, anyWhileBusy_winReg_iff, Option.isSome_iff_ne_none, and_comm]

/-- The whole state after a read. -/
theorem recordRead_whole (off : Offset) : recordRead e off s = { s with
    reads := { off := off, value := readValue e (winReg off) s } :: s.reads
    draws := if s.pend ≠ none ∧ off ∈ [0x008#11, 0x00C#11, 0x018#11] then s.draws + 1 else s.draws } := by
  rw [recordRead_eq]
  split
  · next draws => rw [if_pos ((takesDraw_iff s off).mp draws)]; rfl
  · next noDraw => rw [if_neg (mt (takesDraw_iff s off).mpr noDraw)]; rfl

/-- A register that a pending command makes unreadable is read by its value or by a draw. -/
theorem readValue_anyWhileBusy {reg : WinReg} (h : reg.anyWhileBusy = true) (v : Word)
    (idleValue : s.pend = none → readValue e reg s = v) :
    readValue e reg s = if s.pend = none then v else Config.anyRead s.port s.draws := by
  split
  · next idle => exact idleValue idle
  · next busy =>
    have draws : takesDraw reg s = true := by rw [takesDraw, h, Option.isSome_iff_ne_none.mpr busy, Bool.and_self]
    exact if_pos draws

theorem readValue_crcState_idle (idle : s.pend = none) : readValue e .crcState s = s.r := by
  rw [readValue, takesDraw_idle s _ idle]
  rfl

theorem readValue_fxOut_idle (idle : s.pend = none) : readValue e .fxOut s = s.xo := by
  rw [readValue, takesDraw_idle s _ idle]
  rfl

@[simp] theorem readValue_cmd : readValue e .cmd s = 0x00000000#32 := rfl
@[simp] theorem readValue_data : readValue e .data s = s.d := rfl
@[simp] theorem readValue_fxRaw : readValue e .fxRaw s = s.xi := rfl

theorem winReg_ge {off : Offset} (h : 0x400 ≤ off.toNat) :
    winReg off = .table (BitVec.ofNat 8 ((off.toNat - 0x400) / 4)) := by
  have notNamed (k : Offset) (hk : k.toNat < 0x400) : off ≠ k := by
    rintro rfl
    omega
  simp (disch := decide) only [winReg, notNamed, if_false, if_pos h, Nat.shiftRight_eq_div_pow, Nat.reducePow]

/-- Settles O23: a read that is not refused as a `BusFault` answers its register's value (`recordRead_whole`), offset by offset. -/
theorem readsFollowTheRegisterMap : Obligations.ReadsFollowTheRegisterMap := by
  intro e off n s
  refine ⟨fun bad => memRead_fault e s ((accessOk_eq_false_iff off n).mpr bad), fun wide alignedOff => ?_⟩
  refine ⟨readValue e (winReg off) s, ?_, ?_, ?_, ?_, ?_, ?_, ?_, ?_, ?_, fun table => ?_, fun above below => ?_⟩
  · rw [memRead_ok e s ((accessOk_iff off n).mpr ⟨wide, alignedOff⟩), recordRead_whole]
  · rintro rfl; rw [winReg_cmd, readValue_cmd]
  · rintro rfl; rw [winReg_status, readValue_status]
  · rintro rfl; rw [winReg_crcState]; exact readValue_anyWhileBusy e s rfl _ (readValue_crcState_idle e s)
  · rintro rfl; rw [winReg_crcResult]; exact readValue_anyWhileBusy e s rfl _ (readValue_crcResult_idle e s)
  · rintro rfl; rw [winReg_data, readValue_data]
  · rintro rfl; rw [winReg_fxRaw, readValue_fxRaw]
  · rintro rfl; rw [winReg_fxOut]; exact readValue_anyWhileBusy e s rfl _ (readValue_fxOut_idle e s)
  · rintro rfl; rw [winReg_config, readValue_config]
  · rw [winReg_ge table, readValue_table]
  · rw [winReg_reserved above below, readValue_reserved]

/-! ### What a write answers, by offset (20_memory.md R32) -/

/-- A register that a write can change stands at one offset. -/
theorem offset_of_winReg {off : Offset} {reg : WinReg} (h : winReg off = reg) (writable : reg.dropsWhileBusy = true) :
    reg.offset = some off := by
  subst h
  have listed := (dropsWhileBusy_winReg_iff off).mp writable
  fin_cases listed
  · rw [winReg_cmd]; rfl
  · rw [winReg_crcState]; rfl
  · rw [winReg_data]; rfl
  · rw [winReg_fxRaw]; rfl

/-- Everything a write can do, with the offset at which it does it. -/
theorem memWrite_cases {off : Offset} {n v : Nat} {t : State} (h : memWrite e off n v s = .next t) :
    n = 4 ∧
      ((∃ p, s.pend = some p ∧ t = s.setStatus s.status.setBerr) ∨ t = s ∨
       (s.pend = none ∧ off = 0x000#11 ∧ accept e (BitVec.ofNat 32 v) s = .next t) ∨
       (s.pend = none ∧ off = 0x008#11 ∧ t = s.setR (BitVec.ofNat 32 v)) ∨
       (s.pend = none ∧ off = 0x010#11 ∧ t = s.setD (BitVec.ofNat 32 v)) ∨
       (s.pend = none ∧ off = 0x014#11 ∧ t = s.setXi (BitVec.ofNat 32 v))) := by
  obtain ⟨ok, outcome⟩ := memWrite_next e s h
  obtain ⟨wide, -⟩ := (accessOk_iff off n).mp ok
  refine ⟨wide, ?_⟩
  have place {reg : WinReg} {k : Offset} (hr : winReg off = reg) (writable : reg.dropsWhileBusy = true)
      (hk : reg.offset = some k) : off = k := Option.some.inj ((offset_of_winReg hr writable).symm.trans hk)
  rcases outcome with ⟨p, hp, _, ht⟩ | ⟨_, ht⟩ | ⟨idle, hr, accepted⟩ | ⟨idle, hr, ht⟩ | ⟨idle, hr, ht⟩ | ⟨idle, hr, ht⟩
  · exact .inl ⟨p, hp, ht⟩
  · exact .inr (.inl ht)
  · exact .inr (.inr (.inl ⟨idle, place hr rfl rfl, accepted⟩))
  · exact .inr (.inr (.inr (.inl ⟨idle, place hr rfl rfl, ht⟩)))
  · exact .inr (.inr (.inr (.inr (.inl ⟨idle, place hr rfl rfl, ht⟩))))
  · exact .inr (.inr (.inr (.inr (.inr ⟨idle, place hr rfl rfl, ht⟩))))

/-- Everything the acceptance of a word can do while nothing is pending; a legal word is that of its command. -/
theorem accept_idle_cases {w : Word} {t : State} (idle : s.pend = none) (h : accept e w s = .next t) :
    t = s.setStatus s.status.setIll ∨ t = s ∨ (w = encode .crcInit ∧ t = s.setR crcInitValue) ∨
      t = s.setStatus s.status.clearErrors ∨ ∃ c : PendCmd, decodeWord e w = .ok c.instr ∧ t = acceptMulti c s := by
  rcases accept_cases e s w with ⟨i, decoded, legalWord⟩ | ⟨_, _, illegalWord⟩
  · have served := legalWord.symm.trans h
    rcases exec_cases s served with ⟨p, busy, _⟩ | ⟨_, ⟨_, ht⟩ | ⟨rfl, ht⟩ | ⟨_, ht⟩ | ⟨multi, _, _⟩⟩
    · rw [idle] at busy
      cases busy
    · exact .inr (.inl ht)
    · obtain ⟨-, word⟩ := decodedWordsEncodeBack e w _ decoded
      exact .inr (.inr (.inl ⟨word.symm, ht⟩))
    · exact .inr (.inr (.inr (.inl ht)))
    · obtain ⟨c, -, -, rfl⟩ := decodeWord_multi e decoded multi
      rw [exec_pendCmd_idle s c idle] at served
      exact .inr (.inr (.inr (.inr ⟨c, decoded, (Host.Outcome.next.inj served).symm⟩)))
  · exact .inl (Host.Outcome.next.inj (illegalWord.symm.trans h)).symm

/-- Settles O38: `memWrite_fault`, `memWrite_busy` and `accept_not_legal` in this order; no outcome of a write raises both flags. -/
theorem oneEventByPriority : Obligations.OneEventByPriority := by
  intro e off n v s
  refine ⟨fun bad => memWrite_fault e s ((accessOk_eq_false_iff off n).mpr bad), fun wide alignedOff listed busy => ?_,
    fun wide atCmd idle illegal => ?_, fun t h => ?_⟩
  · obtain ⟨p, hp⟩ := Option.ne_none_iff_exists'.mp busy
    exact memWrite_busy e s ((accessOk_iff off n).mpr ⟨wide, alignedOff⟩) ((dropsWhileBusy_winReg_iff off).mpr listed) hp
  · subst wide atCmd
    exact (memWrite_cmd_idle e s v idle).trans (accept_not_legal e s illegal)
  · rintro ⟨illBefore, illAfter, berrBefore, berrAfter⟩
    obtain ⟨-, outcome⟩ := memWrite_cases e s h
    rcases outcome with ⟨p, _, rfl⟩ | rfl | ⟨idle, _, accepted⟩ | ⟨_, _, rfl⟩ | ⟨_, _, rfl⟩ | ⟨_, _, rfl⟩
    · simp [illBefore] at illAfter
    · simp [illBefore] at illAfter
    · rcases accept_idle_cases e s idle accepted with rfl | rfl | ⟨_, rfl⟩ | rfl | ⟨c, _, rfl⟩
      · simp [berrBefore] at berrAfter
      · simp [illBefore] at illAfter
      · simp [illBefore] at illAfter
      · simp at illAfter
      · simp [illBefore] at illAfter
    · simp [illBefore] at illAfter
    · simp [illBefore] at illAfter
    · simp [illBefore] at illAfter

/-! ### What a step can do (10_state.md R14 to R21) -/

/-- Everything a step can do, by the next event. -/
theorem step_cases {t : State} (h : step s = .next t) :
    ((s.inputs = [] ∨ ∃ rest, s.inputs = .complete :: rest) ∧ ∃ l, t = (complete s).setInputs l) ∨
    (∃ rest, s.inputs = .reset :: rest ∧ t = (applyReset s).setInputs rest) ∨
    (∃ off n rest, s.inputs = .read off n :: rest ∧ t = (recordRead Config.engines off s).setInputs rest) ∨
    (∃ off n v rest, s.inputs = .write off n v :: rest ∧
      memWrite Config.engines off n v (s.setInputs rest) = .next t) := by
  rcases step_next s h with ⟨noInput, rfl⟩ | ⟨ev, rest, hin, served⟩
  · exact .inl ⟨.inl noInput, (complete s).inputs, rfl⟩
  rcases serve_next Config.engines _ served with ⟨off, n, rfl, _, ht⟩ | ⟨off, n, v, rfl, written⟩ | ⟨rfl, ht⟩ | ⟨rfl, ht⟩
  · exact .inr (.inr (.inl ⟨off, n, rest, hin, ht.trans (recordRead_setInputs Config.engines s off rest)⟩))
  · exact .inr (.inr (.inr ⟨off, n, v, rest, hin, written⟩))
  · exact .inl ⟨.inr ⟨rest, hin⟩, rest, ht.trans (complete_setInputs s rest)⟩
  · exact .inr (.inl ⟨rest, hin, ht⟩)

/-- A completion changes `CRC_STATE` only to the fold of a pending CRC command (70_reset_and_hazards.md R101). -/
theorem complete_r : (complete s).r = s.r ∨ ∃ p, s.pend = some p ∧ (p.cmd.op = 0x02#8 ∨ p.cmd.op = 0x03#8) ∧
    (complete s).r = crcFold p.r0 ((bytesOfWord p.d0).take (p.cmd.arg.toNat + 1)) := by
  cases hp : s.pend with
  | none => rw [complete_idle s hp]; exact .inl rfl
  | some p =>
    rcases complete_pending s hp with ⟨a, hc, eq⟩ | ⟨a, hc, eq⟩ | ⟨_, eq⟩ | ⟨_, eq⟩ | ⟨_, eq⟩ <;> rw [eq]
    · refine .inr ⟨p, rfl, .inl (by rw [hc]; rfl), ?_⟩
      rw [hc, finish_r, State.setR_r, crcFoldT_eq_crcFold, consumedBytes_countOfArg]
      rfl
    · refine .inr ⟨p, rfl, .inr (by rw [hc]; rfl), ?_⟩
      rw [hc, finish_r, State.setR_r, consumedBytes_countOfArg]
      rfl
    · exact .inl rfl
    · exact .inl rfl
    · exact .inl rfl

theorem memWrite_r {off : Offset} {n v : Nat} {t : State} (h : memWrite e off n v s = .next t) :
    t.r = s.r ∨ (s.pend = none ∧ off = 0x008#11 ∧ n = 4 ∧ t.r = BitVec.ofNat 32 v) ∨
      (s.pend = none ∧ off = 0x000#11 ∧ n = 4 ∧ BitVec.ofNat 32 v = encode .crcInit ∧ t.r = 0xFFFFFFFF#32) := by
  obtain ⟨wide, outcome⟩ := memWrite_cases e s h
  rcases outcome with ⟨_, _, rfl⟩ | rfl | ⟨idle, atCmd, accepted⟩ | ⟨idle, atR, rfl⟩ | ⟨_, _, rfl⟩ | ⟨_, _, rfl⟩
  · exact .inl rfl
  · exact .inl rfl
  · rcases accept_idle_cases e s idle accepted with rfl | rfl | ⟨word, rfl⟩ | rfl | ⟨c, _, rfl⟩
    · exact .inl rfl
    · exact .inl rfl
    · exact .inr (.inr ⟨idle, atCmd, wide, word, rfl⟩)
    · exact .inl rfl
    · exact .inl rfl
  · exact .inr (.inl ⟨idle, atR, wide, rfl⟩)
  · exact .inl rfl
  · exact .inl rfl

/-- Settles O33, by what a completion (`complete_r`) and a write (`memWrite_r`) do to `R`. -/
theorem crcStateChangesOnlyAsListed : Obligations.CrcStateChangesOnlyAsListed := by
  intro s t h
  rcases step_cases s h with ⟨turn, l, rfl⟩ | ⟨rest, hin, rfl⟩ | ⟨off, n, rest, _, rfl⟩ | ⟨off, n, v, rest, hin, written⟩
  · exact (complete_r s).imp_right fun ⟨p, hp, op, fold⟩ => .inr (.inr (.inr ⟨p, hp, turn, op, fold⟩))
  · exact .inr (.inl ⟨rest, hin, rfl⟩)
  · obtain ⟨r, -⟩ := recordRead_frame Config.engines s off
    exact .inl r
  · rcases memWrite_r Config.engines _ written with same | ⟨idle, rfl, rfl, value⟩ | ⟨idle, rfl, rfl, word, value⟩
    · exact .inl same
    · exact .inr (.inr (.inl ⟨v, rest, idle, hin, value⟩))
    · exact .inr (.inr (.inr (.inl ⟨v, rest, idle, hin, word, value⟩)))

theorem accept_operands {w : Word} {t : State} (h : accept e w s = .next t) : t.d = s.d ∧ t.xi = s.xi := by
  rcases accept_cases e s w with ⟨i, _, legalWord⟩ | ⟨_, _, illegalWord⟩
  · obtain ⟨d, xi, -⟩ := commandFrame i s t (legalWord.symm.trans h)
    exact ⟨d, xi⟩
  · cases illegalWord.symm.trans h
    exact ⟨rfl, rfl⟩

theorem memWrite_operands {off : Offset} {n v : Nat} {t : State} (h : memWrite e off n v s = .next t) :
    (t.d = s.d ∨ (s.pend = none ∧ off = 0x010#11 ∧ n = 4 ∧ t.d = BitVec.ofNat 32 v)) ∧
      (t.xi = s.xi ∨ (s.pend = none ∧ off = 0x014#11 ∧ n = 4 ∧ t.xi = BitVec.ofNat 32 v)) := by
  obtain ⟨wide, outcome⟩ := memWrite_cases e s h
  rcases outcome with ⟨_, _, rfl⟩ | rfl | ⟨_, _, accepted⟩ | ⟨_, _, rfl⟩ | ⟨idle, atD, rfl⟩ | ⟨idle, atXi, rfl⟩
  · exact ⟨.inl rfl, .inl rfl⟩
  · exact ⟨.inl rfl, .inl rfl⟩
  · exact (accept_operands e s accepted).imp .inl .inl
  · exact ⟨.inl rfl, .inl rfl⟩
  · exact ⟨.inr ⟨idle, atD, wide, rfl⟩, .inl rfl⟩
  · exact ⟨.inl rfl, .inr ⟨idle, atXi, wide, rfl⟩⟩

/-- Settles O34: of the ways a step goes (`step_cases`) only a write to the register or a reset changes an operand. -/
theorem operandsChangeOnlyByHostWrites : Obligations.OperandsChangeOnlyByHostWrites := by
  refine ⟨fun s t h => ?_, fun e v s idle => ⟨?_, ?_⟩⟩
  · rcases step_cases s h with ⟨_, l, rfl⟩ | ⟨rest, hin, rfl⟩ | ⟨off, n, rest, _, rfl⟩ | ⟨off, n, v, rest, hin, written⟩
    · obtain ⟨d, xi, -⟩ := complete_frame s
      exact ⟨.inl d, .inl xi⟩
    · exact ⟨.inr (.inl ⟨rest, hin, rfl⟩), .inr (.inl ⟨rest, hin, rfl⟩)⟩
    · obtain ⟨-, d, xi, -⟩ := recordRead_frame Config.engines s off
      exact ⟨.inl d, .inl xi⟩
    · refine (memWrite_operands Config.engines _ written).imp (Or.imp_right ?_) (Or.imp_right ?_)
      · rintro ⟨idle, rfl, rfl, value⟩
        exact .inr ⟨v, rest, idle, hin, value⟩
      · rintro ⟨idle, rfl, rfl, value⟩
        exact .inr ⟨v, rest, idle, hin, value⟩
  · exact ⟨_, memWrite_word_idle e s v (by decide) winReg_data idle, rfl⟩
  · exact ⟨_, memWrite_word_idle e s v (by decide) winReg_fxRaw idle, rfl⟩

theorem memWrite_pend {off : Offset} {n v : Nat} {t : State} (h : memWrite e off n v s = .next t) :
    t.pend = s.pend ∨ (off = 0x000#11 ∧ n = 4 ∧
      ∃ c : PendCmd, decodeWord e (BitVec.ofNat 32 v) = .ok c.instr ∧ t = acceptMulti c s) := by
  obtain ⟨wide, outcome⟩ := memWrite_cases e s h
  rcases outcome with ⟨_, _, rfl⟩ | rfl | ⟨idle, atCmd, accepted⟩ | ⟨_, _, rfl⟩ | ⟨_, _, rfl⟩ | ⟨_, _, rfl⟩
  · exact .inl rfl
  · exact .inl rfl
  · rcases accept_idle_cases e s idle accepted with rfl | rfl | ⟨_, rfl⟩ | rfl | ⟨c, decoded, rfl⟩
    · exact .inl rfl
    · exact .inl rfl
    · exact .inl rfl
    · exact .inl rfl
    · exact .inr ⟨atCmd, wide, c, decoded, rfl⟩
  · exact .inl rfl
  · exact .inl rfl
  · exact .inl rfl

/-- Settles O36: a step to a pending record from none is a write (`step_cases`), of its command's word (`memWrite_pend`). -/
theorem onlyCmdWritesIssueCommands : Obligations.OnlyCmdWritesIssueCommands := by
  refine ⟨fun s t p h idle pending => ?_, fun e s => ?_⟩
  · rcases step_cases s h with ⟨_, l, rfl⟩ | ⟨rest, hin, rfl⟩ | ⟨off, n, rest, _, rfl⟩ | ⟨off, n, v, rest, hin, written⟩
    · rw [State.setInputs_pend, complete_pend] at pending
      cases pending
    · cases pending
    · obtain ⟨-, -, -, -, -, same, -⟩ := recordRead_frame Config.engines s off
      rw [State.setInputs_pend, same, idle] at pending
      cases pending
    · rcases memWrite_pend Config.engines _ written with same | ⟨rfl, rfl, c, decoded, rfl⟩
      · rw [same, State.setInputs_pend, idle] at pending
        cases pending
      · cases pending
        exact ⟨v, rest, hin, decoded⟩
  · rw [memRead_noDraw e s (by decide) (by rw [winReg_cmd]; rfl), winReg_cmd, readValue_cmd]
    rfl

/-! ### Repeated accesses (20_memory.md R36) -/

/-- A register write in the state that it has led to leads to that state again. -/
theorem memWrite_repeat {off : Offset} {n v : Nat} {t : State} (listed : off ∈ [0x008#11, 0x010#11, 0x014#11])
    (h : memWrite e off n v s = .next t) : memWrite e off n v t = .next t := by
  obtain ⟨ok, -⟩ := memWrite_next e s h
  have drops : (winReg off).dropsWhileBusy = true := by
    rw [dropsWhileBusy_winReg_iff]
    exact List.mem_cons_of_mem _ listed
  cases hp : s.pend with
  | some p =>
    rw [memWrite_busy e s ok drops hp] at h
    cases h
    exact memWrite_busy e (s.setStatus s.status.setBerr) ok drops hp
  | none =>
    rw [memWrite_idle e s ok hp] at h
    fin_cases listed
    · rw [winReg_crcState] at h
      cases h
      exact (memWrite_idle e (s.setR (BitVec.ofNat 32 v)) ok hp).trans (by rw [winReg_crcState]; rfl)
    · rw [winReg_data] at h
      cases h
      exact (memWrite_idle e (s.setD (BitVec.ofNat 32 v)) ok hp).trans (by rw [winReg_data]; rfl)
    · rw [winReg_fxRaw] at h
      cases h
      exact (memWrite_idle e (s.setXi (BitVec.ofNat 32 v)) ok hp).trans (by rw [winReg_fxRaw]; rfl)

/-- Settles O28: `recordRead_frame`, `memWrite_repeat`, and as the example a `FX.Q17S` written twice, of which the second is
dropped with `BERR`. -/
theorem readsAndWritesRepeat : Obligations.ReadsAndWritesRepeat := by
  refine ⟨fun e off n s t h => ?_, fun e off n v s t listed h => memWrite_repeat e s listed h, ?_⟩
  · obtain ⟨-, rfl⟩ := memRead_next e s h
    obtain ⟨r, d, xi, xo, status, pend, -⟩ := recordRead_frame e s off
    exact ⟨r, d, xi, xo, status, pend⟩
  · exact ⟨4, State.reset, acceptMulti .q17s State.reset, _, rfl, rfl, by decide⟩

end Sys2Proof.Machine
end

section
/-! SUPPORT. Proofs about the CRC as a code (spec/41_crc32.md R67, R75): the fold is linear, and it forgets nothing. -/

namespace Sys2Proof.Machine

/-! ### The fold is linear (41_crc32.md R67 step 1, R75) -/

theorem crcByteS_xor (r r' : Word) (b b' : Byte) :
    crcByteS (r ^^^ r') (b ^^^ b') = crcByteS r b ^^^ crcByteS r' b' := by
  rw [crcByteS, crcByteS, crcByteS, ← crcSteps_xor, BitVec.setWidth_xor]
  congr 1
  ac_rfl

theorem crcFold_xor (r r' : Word) (m m' : List Byte) (h : m.length = m'.length) :
    crcFold (r ^^^ r') (List.zipWith (· ^^^ ·) m m') = crcFold r m ^^^ crcFold r' m' := by
  induction m generalizing r r' m' with
  | nil =>
    obtain rfl : m' = [] := List.length_eq_zero_iff.mp h.symm
    rfl
  | cons b m ih =>
    cases m' with
    | nil => cases h
    | cons b' m' =>
      rw [List.zipWith_cons_cons, crcFold, crcByteS_xor, ih _ _ _ (Nat.succ.inj h)]
      rfl

/-- The final XOR drops out of a difference. -/
theorem crc32_xor_crc32 (m m' : List Byte) :
    crc32 m ^^^ crc32 m' = crcFold crcInitValue m ^^^ crcFold crcInitValue m' := by
  calc crc32 m ^^^ crc32 m'
      = (crcFold crcInitValue m ^^^ crcFold crcInitValue m') ^^^ (crcXorOut ^^^ crcXorOut) := by
        rw [crc32, crc32]; ac_rfl
    _ = crcFold crcInitValue m ^^^ crcFold crcInitValue m' := by rw [BitVec.xor_self, BitVec.xor_zero]

/-- Settles O47, by `crcStep_xor` and `crcFold_xor`; two messages from one start differ by the fold from 0. -/
theorem crcIsLinear : Obligations.CrcIsLinear := by
  refine ⟨crcStep_xor, crcFold_xor, fun m m' h => ?_⟩
  rw [crc32_xor_crc32, ← crcFold_xor _ _ _ _ h, BitVec.xor_self]

/-! ### The fold forgets nothing (41_crc32.md R75) -/

/-- Bit 31 of a step's result tells whether the polynomial was applied, so no other word steps to 0. -/
theorem eq_zero_of_crcStep {x : Word} (h : crcStep x = 0#32) : x = 0#32 := by
  cases bit : x.getLsbD 0 with
  | true =>
    rw [crcStep_of_bit bit] at h
    have top := congrArg (BitVec.getLsbD · 31) h
    simp at top
  | false =>
    rw [crcStep_of_no_bit bit] at h
    refine BitVec.eq_of_getLsbD_eq fun i hi => ?_
    rw [BitVec.getLsbD_zero]
    cases i with
    | zero => exact bit
    | succ i =>
      have shifted := congrArg (BitVec.getLsbD · i) h
      simpa [Nat.add_comm 1 i] using shifted

theorem crcSteps_injective (k : Nat) {x y : Word} (h : crcSteps k x = crcSteps k y) : x = y := by
  induction k generalizing x y with
  | zero => exact h
  | succ k ih =>
    have step : crcStep x = crcStep y := ih h
    refine BitVec.xor_eq_zero_iff.mp (eq_zero_of_crcStep ?_)
    rw [crcStep_xor, step, BitVec.xor_self]

theorem crcByteS_injective_byte {r : Word} {b b' : Byte} (h : crcByteS r b = crcByteS r b') : b = b' := by
  have words := (BitVec.xor_right_inj _).mp (crcSteps_injective 8 h)
  have narrowed := congrArg (BitVec.setWidth 8) words
  simpa using narrowed

/-- A message tail maps different registers to different ones. -/
theorem crcFold_injective (m : List Byte) {r r' : Word} (h : crcFold r m = crcFold r' m) : r = r' := by
  induction m generalizing r r' with
  | nil => exact h
  | cons b m ih => exact (BitVec.xor_left_inj _).mp (crcSteps_injective 8 (ih h))

/-- Settles O51: equal CRCs are equal registers at the end, so right after the changed byte (`crcFold_injective`), so the byte is
the same (`crcByteS_injective_byte`). -/
theorem byteErrorsAreDetected : Obligations.ByteErrorsAreDetected := by
  intro m m' b b' different same
  have registers : crcFold crcInitValue (m ++ b :: m') = crcFold crcInitValue (m ++ b' :: m') := by
    rw [← crc32_xor_out, ← crc32_xor_out, same]
  rw [crcFold_append, crcFold_append] at registers
  exact different (crcByteS_injective_byte (crcFold_injective m' registers))

end Sys2Proof.Machine
end

section
/-! SUPPORT. Proofs about runs (spec/70_reset_and_hazards.md R102, R105, 41_crc32.md R72): that a pending command completes, what the
hazard rule gives, and what a message's accesses leave. -/

namespace Sys2Proof.Machine

variable (e : Engines) {s : State}

/-! ### A pending command completes (70_reset_and_hazards.md R102) -/

/-- What a completion writes depends on the pending record and, where it does not write, on the register. -/
theorem complete_results {t : State} (pend : t.pend = s.pend) (r : t.r = s.r) (xo : t.xo = s.xo) :
    (complete t).r = (complete s).r ∧ (complete t).xo = (complete s).xo := by
  cases hp : s.pend with
  | none => rw [complete_idle s hp, complete_idle t (pend.trans hp)]; exact ⟨r, xo⟩
  | some p => cases hc : p.cmd <;> simp [complete, hp, pend, hc, r, xo, completeCrcUpdT, completeCrcUpdS, completeFxQ17S,
      completeFxQ21S, completeFxQ15U]

theorem memWrite_pending {p : Pend} (hp : s.pend = some p) {off : Offset} {n v : Nat} {t : State}
    (h : memWrite e off n v s = .next t) : t = s.setStatus s.status.setBerr ∨ t = s := by
  obtain ⟨-, outcome⟩ := memWrite_cases e s h
  rcases outcome with ⟨_, _, ht⟩ | ht | ⟨idle, _⟩ | ⟨idle, _⟩ | ⟨idle, _⟩ | ⟨idle, _⟩
  · exact .inl ht
  · exact .inr ht
  all_goals
    rw [hp] at idle
    cases idle

/-- An event that raises no bus fault is served; on a pending command it completes it, resets the block, or leaves the record and
the result registers. -/
theorem serve_pending {p : Pend} (hp : s.pend = some p) {ev : Event} (clean : busClean ev = true) :
    ∃ t, serve e ev s = .next t ∧ ((ev = .complete ∧ t = complete s) ∨ (ev = .reset ∧ t = applyReset s) ∨
      (t.pend = s.pend ∧ t.r = s.r ∧ t.xo = s.xo)) := by
  cases ev with
  | read off n =>
    obtain ⟨r, -, -, xo, -, pend, -⟩ := recordRead_frame e s off
    exact ⟨_, memRead_ok e s clean, .inr (.inr ⟨pend, r, xo⟩)⟩
  | write off n v =>
    obtain ⟨t, written⟩ := memWrite_total e s v clean
    refine ⟨t, written, .inr (.inr ?_)⟩
    rcases memWrite_pending e hp written with rfl | rfl <;> exact ⟨rfl, rfl, rfl⟩
  | complete => exact ⟨_, rfl, .inl ⟨rfl, rfl⟩⟩
  | reset => exact ⟨_, rfl, .inr (.inl ⟨rfl, rfl⟩)⟩

theorem run_one {t : State} (h : step s = .next t) : Host.Core.run core 1 s = .next t := run_succ_next h

/-- Settles O21, by induction on the events to come: each leaves the command pending with its results (`serve_pending`), or ends
it. -/
theorem pendingCommandsComplete : Obligations.PendingCommandsComplete := by
  intro s busy clean
  obtain ⟨l, hin⟩ : ∃ l, s.inputs = l := ⟨_, rfl⟩
  rw [hin] at clean ⊢
  induction l generalizing s with
  | nil =>
    exact ⟨1, complete s, le_rfl, run_one (step_noInput s hin), complete_pend s, .inr ⟨rfl, rfl⟩⟩
  | cons ev rest ih =>
    obtain ⟨p, hp⟩ := Option.ne_none_iff_exists'.mp busy
    obtain ⟨cleanEv, cleanRest⟩ : busClean ev = true ∧ rest.all busClean = true := by simpa using clean
    obtain ⟨t, served, outcome⟩ := serve_pending Config.engines (s := s.setInputs rest) hp cleanEv
    have stepped : step s = .next t := (step_input s hin).trans served
    rcases outcome with ⟨rfl, rfl⟩ | ⟨rfl, rfl⟩ | ⟨pend, r, xo⟩
    · refine ⟨1, _, Nat.le_add_left 1 _, run_one stepped, complete_pend (s.setInputs rest), .inr ?_⟩
      rw [complete_setInputs]
      exact ⟨rfl, rfl⟩
    · exact ⟨1, _, Nat.le_add_left 1 _, run_one stepped, rfl, .inl (List.mem_cons_self ..)⟩
    · have stillBusy : t.pend ≠ none := pend ▸ busy
      have inputs : t.inputs = rest := serve_inputs Config.engines _ served
      obtain ⟨k, u, bound, ran, idle, result⟩ := ih t stillBusy cleanRest inputs
      obtain ⟨sameR, sameXo⟩ := complete_results (s := s) pend r xo
      refine ⟨k + 1, u, Nat.succ_le_succ bound, (run_succ_next stepped).trans ran, idle, ?_⟩
      rw [← sameR, ← sameXo]
      exact result.imp_left (List.mem_cons_of_mem ev)

/-! ### Completion and the replies -/

def State.setReads (s : State) (rs : List ReadReply) : State := { s with reads := rs }

theorem complete_setReads (s : State) (rs : List ReadReply) : complete (s.setReads rs) = (complete s).setReads rs := by
  rcases s with ⟨r, d, xi, xo, st, _ | ⟨c, r0, d0, x0⟩, po, dr, re, inp⟩
  · rfl
  · cases c <;> rfl

theorem complete_pushRead (s : State) (v : ReadReply) : complete (s.pushRead v) = (complete s).pushRead v := by
  obtain ⟨-, -, -, -, -, -, reads, -⟩ := complete_frame s
  calc complete (s.pushRead v) = (complete s).setReads (v :: s.reads) := complete_setReads s (v :: s.reads)
    _ = (complete s).pushRead v := by rw [← reads]; rfl

/-! ### Runs event by event -/

theorem serveAll_cons {ev : Event} {rest : List Event} {u : State} (h : serveAll e (ev :: rest) s = .next u) :
    ∃ t, serve e ev s = .next t ∧ serveAll e rest t = .next u := by
  cases ho : serve e ev s with
  | next t => exact ⟨t, rfl, (serveAll_cons_next e ho).symm.trans h⟩
  | fault x => cases (serveAll_cons_fault e ho).symm.trans h
  | refused x => cases (serveAll_cons_refused e ho).symm.trans h

/-- The hazard rule for a first event that is served and for the rest (70_reset_and_hazards.md R105). -/
theorem keepsHazardRule_cons {ev : Event} {rest : List Event} {t : State} (h : keepsHazardRule e (ev :: rest) s = true)
    (served : serve e ev s = .next t) : (needsPoll ev = true → s.pend = none) ∧ keepsHazardRule e rest t = true := by
  simp only [keepsHazardRule, served, Bool.and_eq_true, Bool.not_eq_true', Bool.and_eq_false_imp,
    Option.isSome_eq_false_iff, Option.isNone_iff_eq_none] at h
  exact h

/-! ### No write is lost (70_reset_and_hazards.md R105(a)) -/

/-- A write that keeps the hazard rule sets no `BERR`. -/
theorem memWrite_berr {off : Offset} {n v : Nat} {t : State} (h : memWrite e off n v s = .next t)
    (rule : (winReg off).dropsWhileBusy = true → s.pend = none) (clear : s.status.berr = false) : t.status.berr = false := by
  obtain ⟨-, outcome⟩ := memWrite_next e s h
  rcases outcome with ⟨p, busy, drops, _⟩ | ⟨_, rfl⟩ | ⟨idle, _, accepted⟩ | ⟨_, _, rfl⟩ | ⟨_, _, rfl⟩ | ⟨_, _, rfl⟩
  · rw [rule drops] at busy
    cases busy
  · exact clear
  · rcases accept_idle_cases e s idle accepted with rfl | rfl | ⟨_, rfl⟩ | rfl | ⟨c, _, rfl⟩
    · exact clear
    · exact clear
    · exact clear
    · rfl
    · exact clear
  · exact clear
  · exact clear
  · exact clear

theorem serve_berr {ev : Event} {t : State} (h : serve e ev s = .next t) (rule : needsPoll ev = true → s.pend = none)
    (clear : s.status.berr = false) : t.status.berr = false := by
  rcases serve_next e s h with ⟨off, n, _, _, rfl⟩ | ⟨off, n, v, rfl, written⟩ | ⟨_, rfl⟩ | ⟨_, rfl⟩
  · obtain ⟨-, -, -, -, status, -⟩ := recordRead_frame e s off
    rw [status, clear]
  · exact memWrite_berr e written rule clear
  · obtain ⟨-, -, -, berr, -⟩ := complete_frame s
    rw [berr, clear]
  · rfl

/-- Settles O59, by induction on the events (`serve_berr`). -/
theorem hazardFreeRunsLoseNoWrite : Obligations.HazardFreeRunsLoseNoWrite := by
  intro evs
  induction evs with
  | nil =>
    intro s t _ run clear
    cases run
    exact clear
  | cons ev rest ih =>
    intro s u rule run clear
    obtain ⟨t, served, ran⟩ := serveAll_cons Config.engines run
    obtain ⟨first, others⟩ := keepsHazardRule_cons Config.engines rule served
    exact ih t u others ran (serve_berr Config.engines served first clear)

/-! ### Runs that end alike (70_reset_and_hazards.md R105) -/

/-- The state without the replies of polls. -/
def dropPolls (s : State) : State := s.setReads (s.reads.filter fun v => !isPoll v)

/-- What a host can know of a block that it leaves to finish: the pending command completed, the polls left out. -/
def settled (s : State) : State := dropPolls (complete s)

theorem dropPolls_dropPolls (s : State) : dropPolls (dropPolls s) = dropPolls s := by
  simp [dropPolls, State.setReads]

theorem complete_dropPolls (s : State) : complete (dropPolls s) = dropPolls (complete s) := by
  obtain ⟨-, -, -, -, -, -, reads, -⟩ := complete_frame s
  rw [dropPolls, complete_setReads, dropPolls, reads]

theorem complete_complete (s : State) : complete (complete s) = complete s := complete_idle _ (complete_pend s)

theorem dropPolls_pushRead_poll {v : ReadReply} (poll : winReg v.off = .status) (s : State) :
    dropPolls (s.pushRead v) = dropPolls s := by
  simp [dropPolls, isPoll, poll, State.pushRead, State.setReads]

theorem dropPolls_pushRead {v : ReadReply} (other : winReg v.off ≠ .status) (s : State) :
    dropPolls (s.pushRead v) = (dropPolls s).pushRead v := by
  simp [dropPolls, isPoll, other, State.pushRead, State.setReads]

/-- Settled states that are equal agree in what R105 compares. -/
theorem sameForHost_of_settled {t : State} (h : settled s = settled t) : sameForHost (complete s) (complete t) := by
  simp only [settled, dropPolls, State.setReads, State.mk.injEq] at h
  obtain ⟨r, d, xi, xo, status, pend, -, -, reads, -⟩ := h
  exact ⟨r, d, xi, xo, status, pend, reads⟩

/-! #### The unit's turns and the polls leave a settled state as it is -/

theorem recordRead_noDraw {off : Offset} (h : takesDraw (winReg off) s = false) :
    recordRead e off s = s.pushRead { off := off, value := readValue e (winReg off) s } := by
  rw [recordRead_eq, h]
  rfl

theorem settled_of_not_hostDoes {ev : Event} {t : State} (h : serve e ev s = .next t) (own : hostDoes ev = false) :
    settled t = settled s := by
  rcases serve_next e s h with ⟨off, n, rfl, _, rfl⟩ | ⟨off, n, v, rfl, _⟩ | ⟨_, rfl⟩ | ⟨rfl, _⟩
  · have poll : winReg off = .status := by simpa [hostDoes] using own
    rw [recordRead_noDraw e (by rw [poll]; rfl), settled, complete_pushRead, dropPolls_pushRead_poll poll, settled]
  · cases own
  · rw [settled, complete_complete, settled]
  · cases own

/-! #### What the host does -/

/-- A command does not read the replies. -/
theorem exec_dropPolls {i : Instr} {t : State} (h : exec i s = .next t) : exec i (dropPolls s) = .next (dropPolls t) := by
  rcases s with ⟨r, d, xi, xo, st, _ | p, po, dr, re, inp⟩ <;> cases i <;> cases h <;> rfl

theorem accept_dropPolls {w : Word} {t : State} (h : accept e w s = .next t) :
    accept e w (dropPolls s) = .next (dropPolls t) := by
  cases decoded : decodeWord e w with
  | ok i =>
    rw [accept_ok e _ decoded] at h ⊢
    exact exec_dropPolls h
  | error x =>
    rw [accept_error e _ decoded] at h ⊢
    cases h
    rfl

theorem memWrite_dropPolls {off : Offset} {n v : Nat} {t : State} (h : memWrite e off n v s = .next t) :
    memWrite e off n v (dropPolls s) = .next (dropPolls t) := by
  obtain ⟨ok, outcome⟩ := memWrite_next e s h
  rcases outcome with
    ⟨p, hp, drops, rfl⟩ | ⟨ignored, rfl⟩ | ⟨idle, hr, accepted⟩ | ⟨idle, hr, rfl⟩ | ⟨idle, hr, rfl⟩ | ⟨idle, hr, rfl⟩
  · exact memWrite_busy e (dropPolls s) ok drops hp
  · exact memWrite_ignored e (dropPolls t) ok ignored
  · rw [memWrite_idle e (dropPolls s) ok idle, hr]
    exact accept_dropPolls e accepted
  · rw [memWrite_idle e (dropPolls s) ok idle, hr]; rfl
  · rw [memWrite_idle e (dropPolls s) ok idle, hr]; rfl
  · rw [memWrite_idle e (dropPolls s) ok idle, hr]; rfl

theorem readValue_dropPolls (reg : WinReg) : readValue e reg (dropPolls s) = readValue e reg s := by
  unfold readValue
  cases reg <;> rfl

/-- The replies of polls do not matter to what the host does. -/
theorem serve_dropPolls {ev : Event} {t : State} (h : serve e ev s = .next t) (does : hostDoes ev = true)
    (idle : s.pend = none) : serve e ev (dropPolls s) = .next (dropPolls t) := by
  rcases serve_next e s h with ⟨off, n, rfl, ok, rfl⟩ | ⟨off, n, v, rfl, written⟩ | ⟨rfl, _⟩ | ⟨rfl, rfl⟩
  · have other : winReg off ≠ .status := by simpa [hostDoes] using does
    rw [recordRead_noDraw e (takesDraw_idle s _ idle), dropPolls_pushRead other, ← readValue_dropPolls]
    exact memRead_noDraw e (dropPolls s) ok (takesDraw_idle _ _ idle)
  · exact memWrite_dropPolls e written
  · cases does
  · rfl

theorem readValue_complete {reg : WinReg} (steady : reg.anyWhileBusy = false) (other : reg ≠ .status) :
    readValue e reg (complete s) = readValue e reg s := by
  obtain ⟨d, xi, -⟩ := complete_frame s
  cases reg with
  | status => exact absurd rfl other
  | crcState | crcResult | fxOut => cases steady
  | data => exact d
  | fxRaw => exact xi
  | cmd | config | reserved | table i => rfl

theorem applyReset_complete (s : State) : applyReset (complete s) = applyReset s := by
  obtain ⟨-, -, -, -, port, draws, reads, inputs⟩ := complete_frame s
  rw [applyReset, applyReset, port, draws, reads, inputs]

/-- Under the hazard rule the host may as well wait for the completion before it goes on. -/
theorem serve_complete {ev : Event} {t : State} (h : serve e ev s = .next t) (does : hostDoes ev = true)
    (rule : needsPoll ev = true → s.pend = none) : ∃ u, serve e ev (complete s) = .next u ∧ complete u = complete t := by
  cases hp : s.pend with
  | none =>
    rw [complete_idle s hp]
    exact ⟨t, h, rfl⟩
  | some p =>
    have steady : needsPoll ev = false := by
      refine Bool.eq_false_iff.mpr fun needs => ?_
      rw [rule needs] at hp
      cases hp
    rcases serve_next e s h with ⟨off, n, rfl, ok, rfl⟩ | ⟨off, n, v, rfl, written⟩ | ⟨rfl, _⟩ | ⟨rfl, rfl⟩
    · have other : winReg off ≠ .status := by simpa [hostDoes] using does
      have noDraw (u : State) : takesDraw (winReg off) u = false := by
        rw [takesDraw, show (winReg off).anyWhileBusy = false from steady, Bool.false_and]
      refine ⟨_, memRead_noDraw e (complete s) ok (noDraw _), ?_⟩
      rw [recordRead_noDraw e (noDraw s), complete_pushRead, complete_pushRead, complete_complete,
        readValue_complete e steady other]
    · have ignored : (winReg off).dropsWhileBusy = false := steady
      obtain ⟨ok, -⟩ := memWrite_next e s written
      rw [memWrite_ignored e s ok ignored] at written
      cases written
      exact ⟨_, memWrite_ignored e (complete s) ok ignored, complete_complete s⟩
    · cases does
    · exact ⟨_, rfl, congrArg complete (applyReset_complete s)⟩

/-- What one thing that the host does makes of a settled state. -/
def settledAfter (e : Engines) (s : State) (ev : Event) : State :=
  match serve e ev s with
  | .next t => settled t
  | .fault _ => s
  | .refused _ => s

theorem settledAfter_settled {ev : Event} {t : State} (h : serve e ev s = .next t) (does : hostDoes ev = true)
    (rule : needsPoll ev = true → s.pend = none) : settledAfter e (settled s) ev = settled t := by
  obtain ⟨u, served, same⟩ := serve_complete e h does rule
  rw [settledAfter, settled, serve_dropPolls e served does (complete_pend s)]
  show dropPolls (complete (dropPolls u)) = dropPolls (complete t)
  rw [complete_dropPolls, dropPolls_dropPolls, same]

/-- The end of a run that keeps the hazard rule is what the host's own doings make of its start. -/
theorem settled_serveAll {evs : List Event} {t : State} (rule : keepsHazardRule e evs s = true)
    (run : serveAll e evs s = .next t) : settled t = (evs.filter hostDoes).foldl (settledAfter e) (settled s) := by
  induction evs generalizing s with
  | nil =>
    cases run
    rfl
  | cons ev rest ih =>
    obtain ⟨u, served, ran⟩ := serveAll_cons e run
    obtain ⟨first, others⟩ := keepsHazardRule_cons e rule served
    rw [ih others ran]
    cases does : hostDoes ev with
    | false => rw [List.filter_cons_of_neg (by simp [does]), settled_of_not_hostDoes e served does]
    | true => rw [List.filter_cons_of_pos does, List.foldl_cons, settledAfter_settled e served does first]

/-- Settles O58: both ends are the same function of the start and of what the host does (`settled_serveAll`). -/
theorem hazardFreeRunsAgree : Obligations.HazardFreeRunsAgree := by
  intro evs evs' s t t' rule rule' same run run'
  apply sameForHost_of_settled
  rw [settled_serveAll Config.engines rule run, settled_serveAll Config.engines rule' run', same]

/-! ### A message (41_crc32.md R72) -/

theorem serveAll_append {evs : List Event} {t : State} (h : serveAll e evs s = .next t) (more : List Event) :
    serveAll e (evs ++ more) s = serveAll e more t := by
  induction evs generalizing s with
  | nil =>
    cases h
    rfl
  | cons ev rest ih =>
    obtain ⟨u, served, ran⟩ := serveAll_cons e h
    rw [List.cons_append, serveAll_cons_next e served, ih ran]

/-- Polls add replies and change nothing else. -/
theorem serveAll_polls (k : Nat) (s : State) :
    ∃ rs, serveAll e (List.replicate k (.read 0x004#11 4)) s = .next (s.setReads rs) := by
  induction k generalizing s with
  | zero => exact ⟨s.reads, rfl⟩
  | succ k ih =>
    have polled : serve e (.read 0x004#11 4) s = .next (s.pushRead _) :=
      memRead_noDraw e s (by decide) (by rw [winReg_status]; rfl)
    obtain ⟨rs, ran⟩ := ih (s.pushRead _)
    exact ⟨rs, (serveAll_cons_next e polled).trans ran⟩

/-- From `s`, a part of a message has been absorbed: the block is idle again, and no register but `R` and `D` and no flag but
`BUSY` has changed. -/
structure Absorbed (s : State) (m : List Byte) (t : State) : Prop where
  pend : t.pend = none
  r : t.r = crcFold s.r m
  xi : t.xi = s.xi
  xo : t.xo = s.xo
  ill : t.status.ill = s.status.ill
  berr : t.status.berr = s.status.berr

theorem Absorbed.trans {m m' : List Byte} {t u : State} (first : Absorbed s m t) (second : Absorbed t m' u) :
    Absorbed s (m ++ m') u where
  pend := second.pend
  r := by rw [second.r, first.r, crcFold_append]
  xi := second.xi.trans first.xi
  xo := second.xo.trans first.xo
  ill := second.ill.trans first.ill
  berr := second.berr.trans first.berr

/-- The command of the record that a piece's acceptance leaves pending. -/
def Piece.pendCmd (c : Piece) : PendCmd := if c.serial then .updS (argOfCount c.nb) else .updT (argOfCount c.nb)

variable {c : Piece}

theorem exec_piece_idle (idle : s.pend = none) : exec c.command s = .next (acceptMulti c.pendCmd s) := by
  unfold Piece.command Piece.pendCmd
  split
  · exact exec_crcUpdS_idle s c.nb idle
  · exact exec_crcUpdT_idle s c.nb idle

/-- Either engine absorbs the bytes of the piece. -/
theorem complete_piece (least : 1 ≤ c.nb) (most : c.nb ≤ 4) :
    complete (acceptMulti c.pendCmd s) = finish (s.setR (crcFold s.r (consumedBytes s.d c.nb))) := by
  rw [consumedBytes_eq_take s.d most]
  unfold Piece.pendCmd
  split
  · exact complete_acceptMulti_updS s least most
  · rw [complete_acceptMulti_updT s least most, crcFoldT_eq_crcFold]

theorem decodeWord_piece (least : 1 ≤ c.nb) (most : c.nb ≤ 4) :
    decodeWord Config.engines (encode c.command) = .ok c.command := by
  apply decodeWord_encode
  unfold Piece.command
  split <;> simp [Instr.wellFormed, Config.engines, byteCountOk, least, most]

/-- A piece's accesses from an idle block: the operand, the command, polls, the completion, and polls again. -/
theorem absorbed_piece (idle : s.pend = none) (least : 1 ≤ c.nb) (most : c.nb ≤ 4) :
    ∃ t, serveAll Config.engines c.events s = .next t ∧ Absorbed s c.bytes t := by
  have operand : serve Config.engines (.write 0x010#11 4 c.data.toNat) s = .next (s.setD c.data) :=
    memWrite_word_idle Config.engines s c.data (by decide) winReg_data idle
  have command : serve Config.engines (.write 0x000#11 4 (encode c.command).toNat) (s.setD c.data) =
      .next (acceptMulti c.pendCmd (s.setD c.data)) :=
    (memWrite_cmd_decoded Config.engines _ (decodeWord_piece least most)).trans (exec_piece_idle idle)
  have issued : serveAll Config.engines
      [.write 0x010#11 4 c.data.toNat, .write 0x000#11 4 (encode c.command).toNat] s =
      .next (acceptMulti c.pendCmd (s.setD c.data)) := by
    rw [serveAll_cons_next _ operand, serveAll_cons_next _ command]
    rfl
  obtain ⟨early, polledEarly⟩ := serveAll_polls Config.engines c.early (acceptMulti c.pendCmd (s.setD c.data))
  have completed : serveAll Config.engines [.complete] ((acceptMulti c.pendCmd (s.setD c.data)).setReads early) =
      .next ((finish ((s.setD c.data).setR (crcFold s.r c.bytes))).setReads early) := by
    rw [serveAll_cons_next _ (show serve Config.engines .complete _ = .next (complete _) from rfl), complete_setReads,
      complete_piece least most]
    rfl
  obtain ⟨late, polledLate⟩ := serveAll_polls Config.engines c.late
    ((finish ((s.setD c.data).setR (crcFold s.r c.bytes))).setReads early)
  refine ⟨((finish ((s.setD c.data).setR (crcFold s.r c.bytes))).setReads early).setReads late, ?_, rfl, rfl, rfl, rfl, rfl, rfl⟩
  rw [Piece.events, List.append_assoc, List.append_assoc, serveAll_append _ issued, serveAll_append _ polledEarly,
    serveAll_append _ completed, polledLate]

/-- The pieces of a message, one after the other. -/
theorem absorbed_pieces {pieces : List Piece} (idle : s.pend = none) (counts : ∀ c ∈ pieces, 1 ≤ c.nb ∧ c.nb ≤ 4) :
    ∃ t, serveAll Config.engines (pieces.flatMap Piece.events) s = .next t ∧ Absorbed s (pieces.flatMap Piece.bytes) t := by
  induction pieces generalizing s with
  | nil => exact ⟨s, rfl, idle, rfl, rfl, rfl, rfl, rfl⟩
  | cons c rest ih =>
    obtain ⟨least, most⟩ := counts c (List.mem_cons_self ..)
    obtain ⟨t, ran, first⟩ := absorbed_piece idle least most
    obtain ⟨u, ranRest, others⟩ := ih first.pend fun c' listed => counts c' (List.mem_cons_of_mem c listed)
    refine ⟨u, ?_, first.trans others⟩
    rw [List.flatMap_cons, serveAll_append _ ran, ranRest]

/-- Settles O49: `CRC.INIT` sets the register, the pieces are absorbed (`absorbed_pieces`), and the last read of an idle block
returns the view of `R`. -/
theorem messagesGetTheirCrc : Obligations.MessagesGetTheirCrc := by
  intro pieces s idle counts
  have started : serveAll Config.engines [.write 0x000#11 4 (encode .crcInit).toNat] s = .next (s.setR 0xFFFFFFFF#32) := by
    have served : serve Config.engines (.write 0x000#11 4 (encode .crcInit).toNat) s = .next (s.setR 0xFFFFFFFF#32) :=
      (memWrite_cmd_decoded Config.engines s (decodeWord_encode Config.engines rfl)).trans (exec_crcInit_idle s idle)
    rw [serveAll_cons_next _ served]
    rfl
  obtain ⟨t, ran, absorbed⟩ := absorbed_pieces (s := s.setR 0xFFFFFFFF#32) idle counts
  obtain ⟨idleRead, -⟩ := crcResultIsAView
  have viewed := idleRead Config.engines t absorbed.pend
  have value : t.r ^^^ 0xFFFFFFFF#32 = crc32 (pieces.flatMap Piece.bytes) := by rw [absorbed.r]; rfl
  rw [value] at viewed
  have whole : serveAll Config.engines (messageEvents pieces) s = serveAll Config.engines [.read 0x00C#11 4] t := by
    rw [messageEvents, List.append_assoc, serveAll_append _ started, serveAll_append _ ran]
  exact ⟨_, whole.trans (serveAll_cons_next (rest := []) Config.engines viewed), absorbed.r, rfl, absorbed.pend,
    absorbed.xi, absorbed.xo, absorbed.ill, absorbed.berr⟩

end Sys2Proof.Machine
end

section
/-! SUPPORT. Proofs about the layers above one block: a host's program and its end (spec/30_encoding.md R52, 70_reset_and_hazards.md
R108), and a platform of several blocks (20_memory.md R28, R30, 60_exceptions.md R95). -/

namespace Sys2Proof.Machine

/-! ### The host's poll (30_encoding.md R52, 70_reset_and_hazards.md R105) -/

/-- The host after `ld h7, STATUS`, still at its statement. -/
def statusLoaded (h : HostRun) : HostRun :=
  hostSetReg (hostNoteLoad 0x004#11 h.dev.status.word { h with dev := recordRead Config.engines 0x004#11 h.dev }) 7
    h.dev.status.word

theorem statusLoaded_h7 (h : HostRun) : (statusLoaded h).regs[7] = h.dev.status.word := by
  simp [statusLoaded, hostSetReg]

/-- A STATUS read with `BUSY` = 0 is where the end state is taken (R108); any other leaves that place as it was. -/
theorem statusLoaded_seen (h : HostRun) : (statusLoaded h).seen =
    if h.dev.status.word.getLsbD 0 = false then some (regView (statusLoaded h).dev) else h.seen := by
  simp [statusLoaded, hostSetReg, hostNoteLoad]

theorem statusLoaded_pend (h : HostRun) : (statusLoaded h).dev.pend = h.dev.pend := by
  obtain ⟨-, -, -, -, -, pend, -⟩ := recordRead_frame Config.engines h.dev 0x004#11
  exact pend

/-- A `poll` reads `STATUS`, and moves on where its bit 0 is 0. -/
theorem hostStep_poll {prog : List HostStmt} {h h' : HostRun} (atPoll : prog[h.pos]? = some .poll)
    (stepped : hostStep prog h = .next h') :
    h' = if h.dev.status.word.getLsbD 0 then statusLoaded h else hostGoto (statusLoaded h) (h.pos + 1) := by
  simp only [hostStep, atPoll, hostExec] at stepped
  cases loaded : hostLoad 7 0x004#11 h with
  | next h1 =>
    obtain ⟨-, eq⟩ := hostLoad_next h loaded
    rw [winReg_status, readValue_status, ← statusLoaded] at eq
    rw [loaded, eq] at stepped
    rw [← statusLoaded_h7]
    exact (Host.Outcome.next.inj stepped).symm
  | fault x => rw [loaded] at stepped; cases stepped
  | refused x => rw [loaded] at stepped; cases stepped

/-- Under the invariant a poll moves on exactly when nothing is pending. -/
theorem hostStep_poll_cases {prog : List HostStmt} {h h' : HostRun} (atPoll : prog[h.pos]? = some .poll)
    (inv : BlockInv h.dev) (stepped : hostStep prog h = .next h') :
    (h'.pos = h.pos + 1 ∧ h'.dev.pend = none ∧ h'.seen = some (regView h'.dev)) ∨
      (h'.pos = h.pos ∧ h.dev.pend ≠ none ∧ h'.seen = h.seen) := by
  have seen := statusLoaded_seen h
  have pend := statusLoaded_pend h
  have moved := hostStep_poll atPoll stepped
  rw [status_bit_busy inv] at seen moved
  cases hp : h.dev.pend with
  | none =>
    rw [hp] at seen moved pend
    rw [moved]
    exact .inl ⟨rfl, pend, seen⟩
  | some p =>
    rw [hp] at seen moved
    rw [moved]
    exact .inr ⟨rfl, Option.some_ne_none p, seen⟩

/-! ### The end of a program (70_reset_and_hazards.md R108) -/

/-- The end state does not read the block once a STATUS read has shown `BUSY` = 0. -/
theorem endState_of_seen {h h' : HostRun} (taken : h.seen ≠ none) (seen : h'.seen = h.seen) (reads : h'.reads = h.reads) :
    endState h' = endState h := by
  obtain ⟨x, hx⟩ := Option.ne_none_iff_exists'.mp taken
  rw [endState_seen h hx, endState_seen h' (seen.trans hx), reads]

theorem hostStore_plain {off : Offset} {v : Word} {h h' : HostRun} (stored : hostStore off v h = .next h')
    (plain : issuesMulti off v = false) : h'.seen = h.seen ∧ h'.reads = h.reads := by
  obtain ⟨t, -, rfl⟩ := hostStore_next h stored
  rw [hostNoteStore_plain _ plain]
  exact ⟨rfl, rfl⟩

theorem hostStore_multi {off : Offset} {v : Word} {h h' : HostRun} (stored : hostStore off v h = .next h')
    (multi : issuesMulti off v = true) : h'.issued = true ∧ h'.seen = none := by
  obtain ⟨t, -, rfl⟩ := hostStore_next h stored
  rw [hostNoteStore_multi _ multi]
  exact ⟨rfl, rfl⟩

/-- Settles O42: the poll by `hostStep_poll_cases`; a later write or turn of the unit leaves what the end state is made of
(`hostStore_plain`, `endState_of_seen`), and a multi-cycle command opens it again (`hostStore_multi`). -/
theorem hostPollWaitsForCompletion : Obligations.HostPollWaitsForCompletion := by
  refine ⟨fun prog h h' atPoll inv stepped => ?_, fun off v h h' stored plain taken => ?_, fun prog h taken => ?_,
    fun prog off v h h' stored multi => ?_⟩
  · refine (hostStep_poll_cases atPoll inv stepped).imp_left fun ⟨pos, pend, seen⟩ => ⟨pos, pend, seen, ?_⟩
    rw [endState_seen h' seen]
  · obtain ⟨seen, reads⟩ := hostStore_plain stored plain
    exact endState_of_seen taken seen reads
  · exact ⟨_, rfl, endState_of_seen taken rfl rfl⟩
  · obtain ⟨issued, seen⟩ := hostStore_multi stored multi
    simp [hostEnded, issued, seen]

/-! ### Windows (20_memory.md R28, R30) -/

theorem windowOffset_eq_some_iff (base addr : Nat) (off : Offset) :
    windowOffset base addr = some off ↔ base ≤ addr ∧ addr < base + 0x800 ∧ off.toNat = addr - base := by
  unfold windowOffset Config.windowSize
  split
  · next inside =>
    have small : addr - base < 2 ^ 11 := by omega
    rw [Option.some_inj, ← BitVec.toNat_inj, BitVec.toNat_ofNat, Nat.mod_eq_of_lt small]
    exact ⟨fun eq => ⟨inside.1, inside.2, eq.symm⟩, fun ⟨_, _, eq⟩ => eq.symm⟩
  · next outside =>
    exact iff_of_false (Option.some_ne_none off).symm fun ⟨above, below, _⟩ => outside ⟨above, below⟩

/-- The physical address of an access. -/
def MemAccess.addr : MemAccess → Nat
  | .memRead addr _ => addr
  | .memWrite addr _ _ => addr

theorem toEvent_eq_none_iff (a : MemAccess) (base : Nat) : a.toEvent base = none ↔ windowOffset base a.addr = none := by
  cases a with
  | memRead addr n => exact Option.map_eq_none_iff
  | memWrite addr n v => exact Option.map_eq_none_iff

/-- An access that reaches a block lies in its window. -/
theorem window_of_toEvent {a : MemAccess} {base : Nat} (hit : a.toEvent base ≠ none) :
    base ≤ a.addr ∧ a.addr < base + 0x800 := by
  obtain ⟨off, reached⟩ := Option.ne_none_iff_exists'.mp (mt (toEvent_eq_none_iff a base).mpr hit)
  obtain ⟨above, below, -⟩ := (windowOffset_eq_some_iff base a.addr off).mp reached
  exact ⟨above, below⟩

/-- Of two windows apart an access misses one. -/
theorem toEvent_eq_none_of_apart {a : MemAccess} {base base' : Nat} (valid : Config.validBase base = true)
    (valid' : Config.validBase base' = true) (apart : base ≠ base') : a.toEvent base = none ∨ a.toEvent base' = none := by
  simp only [Config.validBase, Config.windowSize, beq_iff_eq] at valid valid'
  by_contra both
  rw [not_or] at both
  obtain ⟨hit, hit'⟩ := both
  obtain ⟨above, below⟩ := window_of_toEvent hit
  obtain ⟨above', below'⟩ := window_of_toEvent hit'
  omega

theorem windowsApart_base_ne {p : List Block} {i j : Nat} {b c : Block} (apart : windowsApart p) (hi : p[i]? = some b)
    (hj : p[j]? = some c) (different : i ≠ j) : b.base ≠ c.base := by
  obtain ⟨-, distinct⟩ := apart
  obtain ⟨insideI, rfl⟩ := List.getElem?_eq_some_iff.mp hi
  obtain ⟨insideJ, rfl⟩ := List.getElem?_eq_some_iff.mp hj
  have pairwise := List.pairwise_iff_getElem.mp distinct
  rcases Nat.lt_or_gt_of_ne different with before | after
  · exact pairwise i j insideI insideJ before
  · exact (pairwise j i insideJ insideI after).symm

/-! ### Steps of a platform (60_exceptions.md R95) -/

/-- Everything a block's step can do to a platform. -/
theorem stepBlock_next {k : Nat} {p p' : List Block} (h : stepBlock k p = .next p') :
    (p[k]? = none ∧ p' = p) ∨
      ∃ b t, p[k]? = some b ∧ step (b.dev.setPort b.base) = .next t ∧ p' = p.set k { b with dev := t } := by
  unfold stepBlock at h
  split at h
  · next outside => cases h; exact .inl ⟨outside, rfl⟩
  · next b hb =>
    split at h
    · next t stepped => cases h; exact .inr ⟨b, t, hb, stepped, rfl⟩
    · cases h
    · cases h

theorem deliverTo_miss {a : MemAccess} {b : Block} (miss : a.toEvent b.base = none) : deliverTo a b = b := by
  simp [deliverTo, miss]

/-- Settles O60: windows by `windowOffset_eq_some_iff` and `toEvent_eq_none_of_apart`, steps by `stepBlock_next`. -/
theorem blocksAreIndependent : Obligations.BlocksAreIndependent := by
  refine ⟨windowOffset_eq_some_iff, fun p p' k b hb h => ?_, fun p p' k j h other => ?_, fun a b => deliverTo_miss,
    fun a p i j b c apart hi hj different => ?_⟩
  · rcases stepBlock_next h with ⟨outside, _⟩ | ⟨b', t, hb', stepped, rfl⟩
    · rw [hb] at outside
      cases outside
    · obtain rfl : b = b' := Option.some.inj (hb.symm.trans hb')
      obtain ⟨inside, -⟩ := List.getElem?_eq_some_iff.mp hb
      exact ⟨t, stepped, List.getElem?_set_self inside, step_port _ stepped⟩
  · rcases stepBlock_next h with ⟨_, rfl⟩ | ⟨b, t, _, _, rfl⟩
    · rfl
    · exact List.getElem?_set_ne other.symm
  · have ⟨valid, _⟩ := apart
    exact (toEvent_eq_none_of_apart (valid b (List.mem_of_getElem? hi)) (valid c (List.mem_of_getElem? hj))
      (windowsApart_base_ne apart hi hj different)).imp deliverTo_miss deliverTo_miss

end Sys2Proof.Machine
end
